-- ==== Sys2Proof/Word.lean ====
section
/-! DEFINITION. Word.lean: the plain types of the CHIP-8 core (spec 00_scope.md R8, R10, R12). -/
namespace Sys2Proof

/-- One byte: a memory cell, a general register, a timer (R8: 8 bits, unsigned). -/
abbrev Byte := BitVec 8

/-- A 16-bit quantity: the instruction word, `pc`, `I`, a stack entry (R8). -/
abbrev Word := BitVec 16

/-- The 12-bit address operand `NNN` (R12). -/
abbrev Addr := BitVec 12

/-- The number of a general register, 0 to 15 (R20: there is no other). -/
abbrev Reg := Fin 16

/-- The number of a key, 0 to 15 (R41). -/
abbrev Key := Fin 16

/-- A keypad snapshot: 16 booleans, entry `k` true when key `k` is pressed (R41). -/
abbrev Keypad := Vector Bool 16

/-- The frame buffer: 32 rows of 64 one-bit cells, `fb[r][c]` (R28). -/
abbrev Frame := Vector (Vector Bool 64) 32

end Sys2Proof
end

