-- ==== Sys2Proof/Syntax.lean ====
section
/-! DEFINITION. Syntax.lean: the instructions, one constructor per row of spec/opcode_table.json, in the
order of 30_encoding.md R86. -/
namespace Sys2Proof

/-- The 34 instructions (R86). `x` and `y` are the register numbers of the `X` and `Y` fields, `nn` the byte
operand, `nnn` the address operand, `n` the row count of `DRW` (R12). -/
inductive Instr where
  /-- row 1, `00E0`, `CLS` (R130) -/
  | cls
  /-- row 2, `00EE`, `RET` (R131) -/
  | ret
  /-- row 3, `1nnn`, `JP addr` (R132) -/
  | jp (nnn : Addr)
  /-- row 4, `2nnn`, `CALL addr` (R133) -/
  | call (nnn : Addr)
  /-- row 5, `3xkk`, `SE Vx, byte` (R134) -/
  | seByte (x : Reg) (nn : Byte)
  /-- row 6, `4xkk`, `SNE Vx, byte` (R135) -/
  | sneByte (x : Reg) (nn : Byte)
  /-- row 7, `5xy0`, `SE Vx, Vy` (R136) -/
  | seReg (x y : Reg)
  /-- row 8, `9xy0`, `SNE Vx, Vy` (R137) -/
  | sneReg (x y : Reg)
  /-- row 9, `Ex9E`, `SKP Vx` (R138) -/
  | skp (x : Reg)
  /-- row 10, `ExA1`, `SKNP Vx` (R139) -/
  | sknp (x : Reg)
  /-- row 11, `6xkk`, `LD Vx, byte` (R150) -/
  | ldByte (x : Reg) (nn : Byte)
  /-- row 12, `7xkk`, `ADD Vx, byte` (R151) -/
  | addByte (x : Reg) (nn : Byte)
  /-- row 13, `8xy0`, `LD Vx, Vy` (R152) -/
  | ldReg (x y : Reg)
  /-- row 14, `8xy1`, `OR Vx, Vy` (R153) -/
  | orReg (x y : Reg)
  /-- row 15, `8xy2`, `AND Vx, Vy` (R154) -/
  | andReg (x y : Reg)
  /-- row 16, `8xy3`, `XOR Vx, Vy` (R155) -/
  | xorReg (x y : Reg)
  /-- row 17, `8xy4`, `ADD Vx, Vy` (R156) -/
  | addReg (x y : Reg)
  /-- row 18, `8xy5`, `SUB Vx, Vy` (R157) -/
  | subReg (x y : Reg)
  /-- row 19, `8xy6`, `SHR Vx` (R158); `y` is the nibble the instruction ignores, 0 in assembled code (R92) -/
  | shr (x y : Reg)
  /-- row 20, `8xy7`, `SUBN Vx, Vy` (R159) -/
  | subnReg (x y : Reg)
  /-- row 21, `8xyE`, `SHL Vx` (R160); `y` is the nibble the instruction ignores, 0 in assembled code (R92) -/
  | shl (x y : Reg)
  /-- row 22, `Annn`, `LD I, addr` (R170) -/
  | ldI (nnn : Addr)
  /-- row 23, `Bnnn`, `JP V0, addr` (R171) -/
  | jpV0 (nnn : Addr)
  /-- row 24, `Fx29`, `LD F, Vx` (R172) -/
  | ldF (x : Reg)
  /-- row 25, `Fx1E`, `ADD I, Vx` (R173) -/
  | addI (x : Reg)
  /-- row 26, `Cxkk`, `RND Vx, byte` (R180) -/
  | rnd (x : Reg) (nn : Byte)
  /-- row 27, `Dxyn`, `DRW Vx, Vy, nibble` (R185); a row count that an encoding can hold is below 16 -/
  | drw (x y : Reg) (n : Nat)
  /-- row 28, `Fx33`, `LD B, Vx` (R195) -/
  | ldB (x : Reg)
  /-- row 29, `Fx55`, `LD [I], Vx` (R196) -/
  | storeRegs (x : Reg)
  /-- row 30, `Fx65`, `LD Vx, [I]` (R197) -/
  | loadRegs (x : Reg)
  /-- row 31, `Fx07`, `LD Vx, DT` (R205) -/
  | ldVxDt (x : Reg)
  /-- row 32, `Fx15`, `LD DT, Vx` (R206) -/
  | ldDtVx (x : Reg)
  /-- row 33, `Fx18`, `LD ST, Vx` (R207) -/
  | ldStVx (x : Reg)
  /-- row 34, `Fx0A`, `LD Vx, K` (R208) -/
  | ldVxK (x : Reg)
  deriving DecidableEq, Repr

end Sys2Proof
end

