-- ==== Sys2Proof/WellFormed.lean ====
section
/-! DEFINITION. WellFormed.lean: which instruction terms the 16-bit encoding can hold (30_encoding.md R82, R83).
Register numbers, bytes and addresses carry their range in their types; the row count of `DRW`, a count the
spec bounds by its field's four bits, is the one operand that needs a check. -/
namespace Sys2Proof

/-- Every operand fits its field of R82. -/
def Instr.wellFormed : Instr → Bool
  | .cls | .ret | .jp _ | .call _ | .seByte _ _ | .sneByte _ _ | .seReg _ _ | .sneReg _ _ | .skp _ | .sknp _ => true
  | .ldByte _ _ | .addByte _ _ | .ldReg _ _ | .orReg _ _ | .andReg _ _ | .xorReg _ _ | .addReg _ _ => true
  | .subReg _ _ | .shr _ _ | .subnReg _ _ | .shl _ _ | .ldI _ | .jpV0 _ | .ldF _ | .addI _ | .rnd _ _ => true
  | .drw _ _ n => decide (n < 16)
  | .ldB _ | .storeRegs _ | .loadRegs _ | .ldVxDt _ | .ldDtVx _ | .ldStVx _ | .ldVxK _ => true

/-- The check as a proposition. -/
abbrev Instr.WellFormed (i : Instr) : Prop := i.wellFormed = true

end Sys2Proof
end

