-- ==== Sys2Proof/Decode.lean ====
section
/-! DEFINITION. Decode.lean: instruction words to instructions and back (30_encoding.md R80 to R93).
ASSUMED, NOT READ FROM A SOURCE: every bit pattern and field position here is the conventional one that the
spec imports (R86; 93_implementation_defined.md G1, G2; log entry 1). -/
namespace Sys2Proof

/-- The operand fields of a word, extracted from every word whatever its format (R12, R82). -/
structure Fields where
  x : Reg
  y : Reg
  n : Nat
  nn : Byte
  nnn : Addr
  deriving DecidableEq, Repr

/-- Field positions: `X = W[11:8]`, `Y = W[7:4]`, `N = W[3:0]`, `NN = W[7:0]`, `NNN = W[11:0]` (R82). -/
def fields (w : Word) : Fields where
  x := (w.extractLsb' 8 4).toFin
  y := (w.extractLsb' 4 4).toFin
  n := (w.extractLsb' 0 4).toNat
  nn := w.extractLsb' 0 8
  nnn := w.extractLsb' 0 12

/-- One row of the table of R86: a word selects it when `w &&& mask = pattern`. -/
structure Row where
  mask : Word
  pattern : Word
  build : Fields → Instr

/-- R84: "A word selects an instruction when `W & mask = match` for that instruction's row." -/
def Row.selects (r : Row) (w : Word) : Bool := w &&& r.mask == r.pattern

/-- Rows 1 to 10 of R86. -/
def controlFlowRows : List Row :=
  [ ⟨0xFFFF, 0x00E0, fun _ => .cls⟩,
    ⟨0xFFFF, 0x00EE, fun _ => .ret⟩,
    ⟨0xF000, 0x1000, fun f => .jp f.nnn⟩,
    ⟨0xF000, 0x2000, fun f => .call f.nnn⟩,
    ⟨0xF000, 0x3000, fun f => .seByte f.x f.nn⟩,
    ⟨0xF000, 0x4000, fun f => .sneByte f.x f.nn⟩,
    ⟨0xF00F, 0x5000, fun f => .seReg f.x f.y⟩,
    ⟨0xF00F, 0x9000, fun f => .sneReg f.x f.y⟩,
    ⟨0xF0FF, 0xE09E, fun f => .skp f.x⟩,
    ⟨0xF0FF, 0xE0A1, fun f => .sknp f.x⟩ ]

/-- Rows 11 to 21 of R86. -/
def registerRows : List Row :=
  [ ⟨0xF000, 0x6000, fun f => .ldByte f.x f.nn⟩,
    ⟨0xF000, 0x7000, fun f => .addByte f.x f.nn⟩,
    ⟨0xF00F, 0x8000, fun f => .ldReg f.x f.y⟩,
    ⟨0xF00F, 0x8001, fun f => .orReg f.x f.y⟩,
    ⟨0xF00F, 0x8002, fun f => .andReg f.x f.y⟩,
    ⟨0xF00F, 0x8003, fun f => .xorReg f.x f.y⟩,
    ⟨0xF00F, 0x8004, fun f => .addReg f.x f.y⟩,
    ⟨0xF00F, 0x8005, fun f => .subReg f.x f.y⟩,
    ⟨0xF00F, 0x8006, fun f => .shr f.x f.y⟩,
    ⟨0xF00F, 0x8007, fun f => .subnReg f.x f.y⟩,
    ⟨0xF00F, 0x800E, fun f => .shl f.x f.y⟩ ]

/-- Rows 22 to 27 of R86. -/
def indexRandomDrawRows : List Row :=
  [ ⟨0xF000, 0xA000, fun f => .ldI f.nnn⟩,
    ⟨0xF000, 0xB000, fun f => .jpV0 f.nnn⟩,
    ⟨0xF0FF, 0xF029, fun f => .ldF f.x⟩,
    ⟨0xF0FF, 0xF01E, fun f => .addI f.x⟩,
    ⟨0xF000, 0xC000, fun f => .rnd f.x f.nn⟩,
    ⟨0xF000, 0xD000, fun f => .drw f.x f.y f.n⟩ ]

/-- Rows 28 to 34 of R86. -/
def memoryTimerRows : List Row :=
  [ ⟨0xF0FF, 0xF033, fun f => .ldB f.x⟩,
    ⟨0xF0FF, 0xF055, fun f => .storeRegs f.x⟩,
    ⟨0xF0FF, 0xF065, fun f => .loadRegs f.x⟩,
    ⟨0xF0FF, 0xF007, fun f => .ldVxDt f.x⟩,
    ⟨0xF0FF, 0xF015, fun f => .ldDtVx f.x⟩,
    ⟨0xF0FF, 0xF018, fun f => .ldStVx f.x⟩,
    ⟨0xF0FF, 0xF00A, fun f => .ldVxK f.x⟩ ]

/-- The 34 rows of R86. -/
def opcodeTable : List Row := controlFlowRows ++ registerRows ++ indexRandomDrawRows ++ memoryTimerRows

/-- The decode function of R84: one of the 34 instructions, or `none` for an unrecognised word (R87). -/
def decodeWord (w : Word) : Option Instr :=
  (opcodeTable.find? fun r => r.selects w).map fun r => r.build (fields w)

/-- Why bytes do not decode. -/
inductive DecodeError where
  /-- fewer than the two bytes of an instruction word (R80) -/
  | truncated
  /-- the word matches no row (R87); the core executes it as a no-op (R118) -/
  | unrecognised (w : Word)
  deriving DecidableEq, Repr

/-- The decoder on bytes: the word is the first two, high byte first (R53); the rest is handed back. -/
def decode : List Byte → Except DecodeError (Instr × List Byte)
  | hi :: lo :: rest =>
    match decodeWord (hi ++ lo) with
    | some i => .ok (i, rest)
    | none => .error (.unrecognised (hi ++ lo))
  | _ => .error .truncated

/-! The encoder (R92), by format. -/

/-- Format `NNN`: `W = match | NNN`. -/
def encNNN (m : Word) (nnn : Addr) : Word := m ||| nnn.setWidth 16

/-- Format `XNN`: `W = match | (X << 8) | NN`. -/
def encXNN (m : Word) (x : Reg) (nn : Byte) : Word := m ||| (BitVec.ofNat 16 x.val <<< 8) ||| nn.setWidth 16

/-- Formats `XY` (with `n` taken as 0, the function code being in `m`) and `XYN`: `W = match | (X << 8) | (Y << 4) | N`. -/
def encXYN (m : Word) (x y : Reg) (n : Nat) : Word :=
  m ||| (BitVec.ofNat 16 x.val <<< 8) ||| (BitVec.ofNat 16 y.val <<< 4) ||| BitVec.ofNat 16 n

/-- Format `X`: `W = match | (X << 8)`. -/
def encX (m : Word) (x : Reg) : Word := m ||| (BitVec.ofNat 16 x.val <<< 8)

/-- The word of a well-formed instruction (R86, R92). -/
def encodeWord : Instr → Word
  | .cls => 0x00E0
  | .ret => 0x00EE
  | .jp nnn => encNNN 0x1000 nnn
  | .call nnn => encNNN 0x2000 nnn
  | .seByte x nn => encXNN 0x3000 x nn
  | .sneByte x nn => encXNN 0x4000 x nn
  | .seReg x y => encXYN 0x5000 x y 0
  | .sneReg x y => encXYN 0x9000 x y 0
  | .skp x => encX 0xE09E x
  | .sknp x => encX 0xE0A1 x
  | .ldByte x nn => encXNN 0x6000 x nn
  | .addByte x nn => encXNN 0x7000 x nn
  | .ldReg x y => encXYN 0x8000 x y 0
  | .orReg x y => encXYN 0x8001 x y 0
  | .andReg x y => encXYN 0x8002 x y 0
  | .xorReg x y => encXYN 0x8003 x y 0
  | .addReg x y => encXYN 0x8004 x y 0
  | .subReg x y => encXYN 0x8005 x y 0
  | .shr x y => encXYN 0x8006 x y 0
  | .subnReg x y => encXYN 0x8007 x y 0
  | .shl x y => encXYN 0x800E x y 0
  | .ldI nnn => encNNN 0xA000 nnn
  | .jpV0 nnn => encNNN 0xB000 nnn
  | .ldF x => encX 0xF029 x
  | .addI x => encX 0xF01E x
  | .rnd x nn => encXNN 0xC000 x nn
  | .drw x y n => encXYN 0xD000 x y n
  | .ldB x => encX 0xF033 x
  | .storeRegs x => encX 0xF055 x
  | .loadRegs x => encX 0xF065 x
  | .ldVxDt x => encX 0xF007 x
  | .ldDtVx x => encX 0xF015 x
  | .ldStVx x => encX 0xF018 x
  | .ldVxK x => encX 0xF00A x

/-- The two bytes of a word as memory holds them: `W[15:8]` at the lower address (R53, R92). -/
def wordBytes (w : Word) : List Byte := [w.extractLsb' 8 8, w.extractLsb' 0 8]

/-- The bytes of an instruction (R92). -/
def encode (i : Instr) : List Byte := wordBytes (encodeWord i)

/-- The instruction the decoder reads from the word `w` of `nbits` bits, numbered as spec/opcode_table.json numbers
them (bit 0 the least significant bit of the one 16-bit word): the word is laid out as its two bytes and
given to `decode`. -/
def decodeTableWord (nbits w : Nat) : Option Instr :=
  match decode (wordBytes (BitVec.ofNat 16 (w % 2 ^ nbits))) with
  | .ok (i, _) => some i
  | .error _ => none

end Sys2Proof
end

