-- ==== Sys2Proof/Config.lean ====
section
/-! DEFINITION. Config.lean: the open parameters of spec 00_scope.md R9 and the free values.
The parameters are plain data, fixed for one machine; `Machine.State` carries them so that a claim can
quantify over them, and no step changes them. Their defaults are in Machine/Platform.lean. -/
namespace Sys2Proof

/-- The two readings of the base of `JP V0, addr` (R171, 90_conflicts.md C9). -/
inductive Jp0Base where
  /-- the base is the index register: the document's literal words, the spec's default -/
  | index
  /-- the base is the 12-bit operand: the conventional instruction -/
  | operand
  deriving DecidableEq, Repr

/-- The open parameters of R9. -/
structure Config where
  /-- `JP0_BASE` (R171). -/
  jp0Base : Jp0Base
  /-- `FONT`: the 80 glyph bytes installed at 0x050 (R33). -/
  font : Vector Byte 80
  /-- `MEM_INIT`: what memory outside the font table holds at power-on. An address with no entry holds 0;
  of two entries for one address the first counts; an entry inside the font table has no effect (R38). -/
  memInit : List Host.Cell
  /-- `TICK_HZ`: the host's cadence. No rule depends on it (R9, R267), so nothing in the model reads it. -/
  tickHz : Nat
  deriving DecidableEq, Repr

/-- FREE VALUE. The keypad snapshot the host supplies with a `Tick` that no queued transaction of
`State.host` describes, by the number of such ticks before it (R41: the host may supply any of the 65536
values). It has no body, so nothing can be proved about it. -/
opaque Config.freeKeypad : Nat → Keypad

/-- FREE VALUE. The random byte supplied with such a `Tick` (R42, R180: "an input under no law"). -/
opaque Config.freeRnd : Nat → Byte

end Sys2Proof
end

