-- ==== Sys2Proof/Machine/Platform.lean ====
section
/-! DEFINITION. Machine/Platform.lean: the spec's default values of the open parameters (00_scope.md R9) and
the power-on contents of memory. -/
namespace Sys2Proof.Machine

/-- The conventional glyph bytes, the default of `FONT` (R33; from general knowledge, 93 G4; log entry 1). -/
def standardFont : Vector Byte 80 :=
  #v[0xF0, 0x90, 0x90, 0x90, 0xF0,  0x20, 0x60, 0x20, 0x20, 0x70,  0xF0, 0x10, 0xF0, 0x80, 0xF0,  0xF0, 0x10, 0xF0, 0x10, 0xF0,
     0x90, 0x90, 0xF0, 0x10, 0x10,  0xF0, 0x80, 0xF0, 0x10, 0xF0,  0xF0, 0x80, 0xF0, 0x90, 0xF0,  0xF0, 0x10, 0x20, 0x40, 0x40,
     0xF0, 0x90, 0xF0, 0x90, 0xF0,  0xF0, 0x90, 0xF0, 0x10, 0xF0,  0xF0, 0x90, 0xF0, 0x90, 0x90,  0xE0, 0x90, 0xE0, 0x90, 0xE0,
     0xF0, 0x80, 0x80, 0x80, 0xF0,  0xE0, 0x90, 0x90, 0x90, 0xE0,  0xF0, 0x80, 0xF0, 0x80, 0xF0,  0xF0, 0x80, 0xF0, 0x80, 0x80]

/-- The defaults of R9: `JP0_BASE = index` (D9), the conventional font (D22), zero memory (D23), 60 ticks a second (D3). -/
def standardConfig : Config where
  jp0Base := .index
  font := standardFont
  memInit := []
  tickHz := 60

/-- `FONT_BASE` (R8). -/
def fontBase : Nat := 0x050

/-- `PROG_BASE` (R8), also the reset value of `pc` (R253). -/
def progBase : Nat := 0x200

/-- `PROG_MAX`: the bytes from `PROG_BASE` to the end of memory (R8). -/
def progMax : Nat := 3584

/-- The first entry for an address in a list of cells. -/
def lookupCell : List Host.Cell → Nat → Option Byte
  | [], _ => none
  | (b, v) :: t, a => if a = b then some v else lookupCell t a

/-- The power-on contents of memory: `FONT` at 0x050 to 0x09F (R33, R38), elsewhere `MEM_INIT` (R9), 0 by default.
This is what an address that `State.mem` does not list reads as. -/
def powerOnByte (c : Config) (a : Nat) : Byte :=
  if h : fontBase ≤ a ∧ a - fontBase < 80 then c.font[a - fontBase]'h.2
  else (lookupCell c.memInit a).getD 0

end Sys2Proof.Machine
end

