-- ==== Sys2Proof/Machine/Memory.lean ====
section
/-! DEFINITION. Machine/Memory.lean: the 4096-byte array (20_memory.md R50) as the list of the cells that differ from
the power-on contents, addresses strictly rising, so that equal memories are equal lists. Addresses here are
in range; the bounds rule of R55 and R56 is in Machine/Ops.lean. -/
namespace Sys2Proof.Machine

/-- The cells that differ from `powerOnByte`, in rising order of address. -/
abbrev Memory := List Host.Cell

/-- `MEM_SIZE` (R8). -/
def memSize : Nat := 4096

/-- The byte at an address. -/
def Memory.read (c : Config) (m : Memory) (a : Nat) : Byte := (lookupCell m a).getD (powerOnByte c a)

/-- Put one byte at an address, keeping the list in its canonical form. -/
def Memory.write (c : Config) (a : Nat) (v : Byte) : Memory → Memory
  | [] => if v = powerOnByte c a then [] else [(a, v)]
  | (b, w) :: t =>
    if a < b then (if v = powerOnByte c a then (b, w) :: t else (a, v) :: (b, w) :: t)
    else if a = b then (if v = powerOnByte c a then t else (a, v) :: t)
    else (b, w) :: Memory.write c a v t

/-- Every address is at least `lo` and inside memory, addresses strictly rise, and no entry repeats the power-on contents. -/
def Memory.wfFrom (c : Config) : Nat → Memory → Bool
  | _, [] => true
  | lo, (a, v) :: t => decide (lo ≤ a) && decide (a < memSize) && decide (v ≠ powerOnByte c a) && Memory.wfFrom c (a + 1) t

/-- The canonical form. -/
abbrev Memory.wf (c : Config) (m : Memory) : Prop := Memory.wfFrom c 0 m = true

/-- Put the bytes of a list at consecutive addresses, in ascending order. -/
def Memory.writeList (c : Config) : Nat → List Byte → Memory → Memory
  | _, [], m => m
  | a, v :: vs, m => Memory.writeList c (a + 1) vs (Memory.write c a v m)

end Sys2Proof.Machine
end

