-- ==== Sys2Proof/Machine/State.lean ====
section
/-! DEFINITION. Machine/State.lean: everything the spec gives the machine (10_state.md R20 to R33), the host's side of the
interface (R40 to R44), and the model's own markers, as plain data; and the state after `PowerOn` (R38, R250). -/
namespace Sys2Proof.Machine

/-- The seven conditions of 60_exceptions.md R221. Noting one changes nothing the hardware can observe (R14). -/
inductive Condition where
  /-- a byte read at 0x1000 or above; it reads as 0 -/
  | oobRead
  /-- a byte write at 0x1000 or above; it is dropped -/
  | oobWrite
  /-- a word that matches no row; it is a no-op -/
  | unrecognisedWord
  /-- `CALL` with 16 entries on the stack -/
  | stackOverflow
  /-- `RET` with an empty stack -/
  | stackUnderflow
  /-- a key skip with a register value above 15 -/
  | keyIndexRange
  /-- an image longer than 3584 bytes -/
  | loadTruncated
  deriving DecidableEq, Repr

/-- The sticky markers of R221 and D32: set by a note, never cleared. The model's own state, not the hardware's. -/
structure Notes where
  oobRead : Bool
  oobWrite : Bool
  unrecognisedWord : Bool
  stackOverflow : Bool
  stackUnderflow : Bool
  keyIndexRange : Bool
  loadTruncated : Bool
  deriving DecidableEq, Repr

/-- The outputs of a `Tick` (R43, R44). -/
structure Report where
  frameChanged : Bool
  soundActive : Bool
  deriving DecidableEq, Repr

/-- The host's transactions (R40). -/
inductive HostOp where
  | powerOn
  | reset
  | loadProgram (bytes : List Byte)
  | tick (keypad : Keypad) (rnd : Byte)
  deriving DecidableEq, Repr

/-- The four program-counter directives (R15, R119). -/
inductive Directive where
  | next
  | skip
  | jump (a : Word)
  | hold
  deriving DecidableEq, Repr

/-- The machine. -/
structure State where
  /-- general registers `x[0]` to `x[15]`; `x[15]` is the flag register (R20, R21) -/
  x : Vector Byte 16
  /-- index register (R23) -/
  I : Word
  /-- program counter: between ticks and during execution, the address of the instruction (R22) -/
  pc : Word
  /-- delay timer (R24) -/
  dt : Byte
  /-- sound timer (R25) -/
  st : Byte
  /-- call stack (R26) -/
  stack : Vector Word 16
  /-- stack pointer, 0 to 16 (R27) -/
  sp : Fin 17
  /-- frame buffer, `fb[r][c]` (R28) -/
  fb : Frame
  /-- keypad latch (R29) -/
  kp : Keypad
  /-- frame-changed flag (R30) -/
  fc : Bool
  /-- memory: the cells that differ from the power-on contents (R32, R50) -/
  mem : Memory
  /-- input port: the random byte of the current tick (R42) -/
  rnd : Byte
  /-- outputs of the last transaction; none after a transaction that is no `Tick` (R40, R43, R44) -/
  report : Option Report
  /-- the host's transactions to come, oldest first; see `State.nextOp` for the empty list -/
  host : List HostOp
  /-- the model's own: how many ticks took their inputs from the free values of Config -/
  draws : Nat
  /-- the model's own: the sticky markers of R221 -/
  notes : Notes
  /-- the open parameters (R9), fixed for one machine -/
  cfg : Config
  deriving DecidableEq, Repr

/-- The core raises no exception, fault or error, ever (R220), so there is no fault to name. -/
inductive Fault
  deriving DecidableEq, Repr

/-- The only reason to refuse an instruction. -/
inductive Refusal where
  /-- raised by `exec` alone, for an instruction that has no meaning yet; safe. No arm of this model raises it. -/
  | notModelled (mnemonic : String)
  deriving DecidableEq, Repr

/-- What a step or a meaning answers. -/
abbrev Answer := Host.Outcome State Fault Refusal

/-- The state after `PowerOn` (R38, R250): everything zero, the font installed, `pc = 0x200`; no host transaction queued. -/
def State.reset : State where
  x := Vector.replicate 16 0
  I := 0
  pc := 0x200
  dt := 0
  st := 0
  stack := Vector.replicate 16 0
  sp := 0
  fb := Vector.replicate 32 (Vector.replicate 64 false)
  kp := Vector.replicate 16 false
  fc := false
  mem := []
  rnd := 0
  report := none
  host := []
  draws := 0
  notes := ⟨false, false, false, false, false, false, false⟩
  cfg := standardConfig

end Sys2Proof.Machine
end

