-- ==== Sys2Proof/Machine/Operands.lean ====
section
/-! DEFINITION. Machine/Operands.lean: every operand form of the instruction set and the values computed from operands
(30_encoding.md R83; the "Operands" lines of files 41 to 47). -/
namespace Sys2Proof.Machine

/-- The flag register `x[15]` (R21). -/
def flagReg : Reg := 15

/-- `x[r]` (R20: no register is hard-wired or aliased). -/
def State.reg (s : State) (r : Reg) : Byte := s.x[r]

/-- `zext_16` of the address operand (R83). -/
def zextAddr (nnn : Addr) : Word := nnn.setWidth 16

/-- `zext_16` of a register value (R171, R173). -/
def zextByte (v : Byte) : Word := v.setWidth 16

/-- The effective address `I + k`, formed without wrap (R57, R199). -/
def State.dataAddr (s : State) (k : Nat) : Nat := s.I.toNat + k

/-- The base of the indexed jump (R171). -/
def State.jumpBase (s : State) (nnn : Addr) : Word :=
  match s.cfg.jp0Base with
  | .index => s.I
  | .operand => zextAddr nnn

/-- `0x050 + 5 * v` for the whole 8-bit value (R172). -/
def glyphAddr (v : Byte) : Word := BitVec.ofNat 16 (0x050 + 5 * v.toNat)

/-- The key a skip queries: the low four bits of the register (R138; D14). -/
def keyNumber (v : Byte) : Key := (v.extractLsb' 0 4).toFin

/-- The 16 keys in ascending order. -/
def keys : List Key := [0, 1, 2, 3, 4, 5, 6, 7, 8, 9, 10, 11, 12, 13, 14, 15]

/-- The lowest-numbered pressed key, if any is down (R208; D15). -/
def leastKey (kp : Keypad) : Option Key := keys.find? fun k => kp[k]

/-- Hundreds, tens and ones (R195). -/
def bcdDigits (v : Byte) : List Byte :=
  [BitVec.ofNat 8 (v.toNat / 100), BitVec.ofNat 8 (v.toNat / 10 % 10), BitVec.ofNat 8 (v.toNat % 10)]

/-- The registers `x[0]` to `x[X]`, ascending (R196, R197). -/
def blockRegs (x : Reg) : List Reg := (List.range (x.val + 1)).map (Fin.ofNat 16)

/-- The origin column of a sprite (R185). -/
def spriteColumn (v : Byte) : Nat := v.toNat % 64

/-- The origin row of a sprite (R185). -/
def spriteRow (v : Byte) : Nat := v.toNat % 32

/-- The pixel of a sprite byte at column offset `c`: bit 7 is offset 0 (R187). -/
def spriteBit (v : Byte) (c : Nat) : Bool := v.getLsbD (7 - c)

end Sys2Proof.Machine
end

