-- ==== Sys2Proof/Machine/Flags.lean ====
section
/-! DEFINITION. Machine/Flags.lean: the flag values that six instructions leave in `x[15]` (10_state.md R21; 42_register_alu.md
R156 to R160; 45_sprite_draw.md R185). There is no other flag (R162). -/
namespace Sys2Proof.Machine

/-- A flag is 0 or 1 (R21). -/
def flagOf (b : Bool) : Byte := if b then 1 else 0

/-- Carry out of bit 7: the unbounded sum exceeds 255 (R156). -/
def carryFlag (a b : Byte) : Byte := flagOf (decide (255 < a.toNat + b.toNat))

/-- `a > b`, strictly: equal operands give 0 (R157, R159; 90_conflicts.md C3). -/
def greaterFlag (a b : Byte) : Byte := flagOf (decide (b.toNat < a.toNat))

/-- The bit a right shift by one pushes out (R158). -/
def rightShiftFlag (a : Byte) : Byte := flagOf (a.getLsbD 0)

/-- The bit a left shift by one pushes out (R160). -/
def leftShiftFlag (a : Byte) : Byte := flagOf (a.getLsbD 7)

end Sys2Proof.Machine
end

