-- ==== Sys2Proof/Machine/Ops.lean ====
section
/-! DEFINITION. Machine/Ops.lean: the named operations over the state that the instructions share. The hardware has no
exception to take and none to return from (60_exceptions.md R220, R230, R231); what stands in their place is
`State.note`, which marks a condition and lets the machine go on (R14, R221). -/
namespace Sys2Proof.Machine

/-! Notes (R14, R221). -/

/-- Set one sticky marker. -/
def Notes.mark (n : Notes) : Condition → Notes
  | .oobRead => { n with oobRead := true }
  | .oobWrite => { n with oobWrite := true }
  | .unrecognisedWord => { n with unrecognisedWord := true }
  | .stackOverflow => { n with stackOverflow := true }
  | .stackUnderflow => { n with stackUnderflow := true }
  | .keyIndexRange => { n with keyIndexRange := true }
  | .loadTruncated => { n with loadTruncated := true }

/-- Whether a condition has been noted. -/
def Notes.has (n : Notes) : Condition → Bool
  | .oobRead => n.oobRead
  | .oobWrite => n.oobWrite
  | .unrecognisedWord => n.unrecognisedWord
  | .stackOverflow => n.stackOverflow
  | .stackUnderflow => n.stackUnderflow
  | .keyIndexRange => n.keyIndexRange
  | .loadTruncated => n.loadTruncated

/-- `note c` (R14). -/
def State.note (c : Condition) (s : State) : State := { s with notes := s.notes.mark c }

/-! The program counter (R15, R120). -/

/-- `apply(d, pc)` of R120; additions wrap modulo 65536. -/
def Directive.apply : Directive → Word → Word
  | .next, pc => pc + 2
  | .skip, pc => pc + 4
  | .jump a, _ => a
  | .hold, pc => pc

/-- Step 8 of a tick: apply the directive (R120). -/
def State.advance (d : Directive) (s : State) : State := { s with pc := d.apply s.pc }

/-- The end of an instruction rule: `d <- ...`, and its application. -/
def State.complete (d : Directive) (s : State) : Answer := .next (s.advance d)

/-! Registers (R20, R161). -/

/-- `x[r] <- v`. -/
def State.setReg (r : Reg) (v : Byte) (s : State) : State := { s with x := s.x.set r v }

/-- The result to `x[X]` first, the flag to `x[15]` last (R161). -/
def State.setResultFlag (x : Reg) (result flag : Byte) (s : State) : State := (s.setReg x result).setReg flagReg flag

/-- `I <- a` (R23). -/
def State.setI (a : Word) (s : State) : State := { s with I := a }

/-! Memory (R55, R56). -/

/-- The value of `MemRead(a, 1)`: 0 outside memory (R55). -/
def State.readByte (s : State) (a : Nat) : Byte := if a ≤ 0xFFF then s.mem.read s.cfg a else 0

/-- The note of `MemRead(a, 1)` (R55). -/
def State.noteRead (a : Nat) (s : State) : State := if a ≤ 0xFFF then s else s.note .oobRead

/-- The notes of `n` one-byte reads at ascending addresses, each checked by itself (R54, R55). -/
def State.noteReads : Nat → Nat → State → State
  | _, 0, s => s
  | a, n + 1, s => State.noteReads (a + 1) n (s.noteRead a)

/-- The values of `n` one-byte reads at ascending addresses. -/
def State.readBytes (s : State) (a n : Nat) : List Byte := (List.range n).map fun k => s.readByte (a + k)

/-- `MemWrite(a, 1, v)`: dropped outside memory (R56). -/
def State.writeByte (a : Nat) (v : Byte) (s : State) : State :=
  if a ≤ 0xFFF then { s with mem := Memory.write s.cfg a v s.mem } else s.note .oobWrite

/-- One-byte writes at ascending addresses, each checked by itself (R54, R56). -/
def State.writeBytes : Nat → List Byte → State → State
  | _, [], s => s
  | a, v :: vs, s => State.writeBytes (a + 1) vs (s.writeByte a v)

/-- `x[r] <- MemRead(i0 + r, 1)` for the registers of a list, in order (R197). -/
def State.loadBlock (i0 : Nat) : List Reg → State → State
  | [], s => s
  | r :: rs, s => State.loadBlock i0 rs ((s.noteRead (i0 + r.val)).setReg r (s.readByte (i0 + r.val)))

/-! The call stack (R26, R27). -/

/-- Push a return address; with 16 entries it is dropped and the overflow noted (R133; D16). -/
def State.pushReturn (ra : Word) (s : State) : State :=
  if h : s.sp.val < 16 then { s with stack := s.stack.set s.sp.val ra h, sp := ⟨s.sp.val + 1, by omega⟩ }
  else s.note .stackOverflow

/-- The stack pointer clamps at 0, and the underflow is noted (R131; D17). -/
def State.popReturn (s : State) : State :=
  if s.sp.val = 0 then s.note .stackUnderflow else { s with sp := ⟨s.sp.val - 1, by omega⟩ }

/-- `stack[sp]` after the decrement: the address `RET` jumps to (R131). -/
def State.returnTarget (s : State) : Word := s.stack[s.sp.val - 1]'(by omega)

/-! The frame buffer (R28, R185). -/

/-- `fb[r][c]`. -/
def cellAt (f : Frame) (r : Fin 32) (c : Fin 64) : Bool := f[r][c]

/-- `fb[r][c] <- b`. -/
def setCell (r : Fin 32) (c : Fin 64) (b : Bool) (f : Frame) : Frame := f.set r (f[r].set c b)

/-- All cells 0. -/
def blankFrame : Frame := Vector.replicate 32 (Vector.replicate 64 false)

/-- One pixel of a draw: exclusive OR into the cell, and the collision so far (R185). -/
def drawPixel (r : Fin 32) (c : Fin 64) (bit : Bool) (p : Frame × Bool) : Frame × Bool :=
  (setCell r c (cellAt p.1 r c ^^ bit) p.1, p.2 || (cellAt p.1 r c && bit))

/-- The 8 pixels of a sprite byte in row `y`, from column `x0`; coordinates wrap (R185, R186). -/
def drawByte (y x0 : Nat) (v : Byte) (p : Frame × Bool) : Frame × Bool :=
  (List.range 8).foldl (fun p c => drawPixel (Fin.ofNat 32 y) (Fin.ofNat 64 (x0 + c)) (spriteBit v c) p) p

/-- The rows of a sprite, downwards from row `y` (R185). -/
def drawRows (x0 : Nat) : Nat → List Byte → Frame × Bool → Frame × Bool
  | _, [], p => p
  | y, v :: vs, p => drawRows x0 (y + 1) vs (drawByte y x0 v p)

/-- The frame buffer as the host reads it between ticks, cell `(r, c)` at index `64*r + c` (R45). -/
def State.frameView (s : State) (k : Fin 2048) : Bool := cellAt s.fb (Fin.ofNat 32 (k.val / 64)) (Fin.ofNat 64 k.val)

/-! The steps of a tick around the instruction (R110). -/

/-- Step 3 for one timer: down by one, stopping at 0 (R113). -/
def countDown (t : Byte) : Byte := if t = 0 then 0 else t - 1

/-- Steps 1 to 3: latch the keypad, clear the frame-changed flag, count both timers down (R111 to R113); the random byte
stands at its port (R42). -/
def State.beginTick (keypad : Keypad) (rnd : Byte) (s : State) : State :=
  { s with kp := keypad, fc := false, dt := countDown s.dt, st := countDown s.st, rnd := rnd }

/-- Step 4: `W = MemRead(pc, 1) ++ MemRead(pc + 1, 1)`, the second address formed without wrap (R53, R57, R114). -/
def State.fetchWord (s : State) : Word := s.readByte s.pc.toNat ++ s.readByte (s.pc.toNat + 1)

/-- The notes of step 4 (R55, R58). -/
def State.noteFetch (s : State) : State := s.noteReads s.pc.toNat 2

/-- Step 9: the outputs, sampled after the instruction (R121). -/
def State.endTick (s : State) : State := { s with report := some ⟨s.fc, decide (0 < s.st.toNat)⟩ }

/-- Step 9 for any answer. -/
def finishTick : Answer → Answer
  | .next s => .next s.endTick
  | .fault f => .fault f
  | .refused r => .refused r

/-- An unrecognised word: noted, and otherwise a no-op that advances `pc` by 2 (R118). -/
def execUnrecognised (s : State) : Answer := (s.note .unrecognisedWord).complete .next

end Sys2Proof.Machine
end

