-- ==== Sys2Proof/Machine/ControlFlow.lean ====
section
/-! DEFINITION. Machine/ControlFlow.lean: the instructions of 41_control_flow.md. `s.pc` is the address of the instruction
being executed (R22). -/
namespace Sys2Proof.Machine

/-- `CLS` (R130). -/
def execCls (s : State) : Answer := State.complete .next { s with fb := blankFrame, fc := true }

/-- `RET` (R131): the popped entry keeps its value. -/
def execRet (s : State) : Answer := s.popReturn.complete (.jump s.returnTarget)

/-- `JP addr` (R132). -/
def execJp (nnn : Addr) (s : State) : Answer := s.complete (.jump (zextAddr nnn))

/-- `CALL addr` (R133): the return address is `pc + 2`; the jump is taken even when the push is dropped. -/
def execCall (nnn : Addr) (s : State) : Answer := (s.pushReturn (s.pc + 2)).complete (.jump (zextAddr nnn))

/-- The directive of a skip (R119, R140). -/
def skipIf (b : Bool) : Directive := if b then .skip else .next

/-- `SE Vx, byte` (R134). -/
def execSeByte (x : Reg) (nn : Byte) (s : State) : Answer := s.complete (skipIf (s.reg x == nn))

/-- `SNE Vx, byte` (R135). -/
def execSneByte (x : Reg) (nn : Byte) (s : State) : Answer := s.complete (skipIf (s.reg x != nn))

/-- `SE Vx, Vy` (R136). -/
def execSeReg (x y : Reg) (s : State) : Answer := s.complete (skipIf (s.reg x == s.reg y))

/-- `SNE Vx, Vy` (R137). -/
def execSneReg (x y : Reg) (s : State) : Answer := s.complete (skipIf (s.reg x != s.reg y))

/-- The note of a key skip: the register value is above 15 (R138). -/
def State.noteKey (v : Byte) (s : State) : State := if 15 < v.toNat then s.note .keyIndexRange else s

/-- `SKP Vx` (R138). -/
def execSkp (x : Reg) (s : State) : Answer :=
  (s.noteKey (s.reg x)).complete (skipIf s.kp[keyNumber (s.reg x)])

/-- `SKNP Vx` (R139). -/
def execSknp (x : Reg) (s : State) : Answer :=
  (s.noteKey (s.reg x)).complete (skipIf !s.kp[keyNumber (s.reg x)])

end Sys2Proof.Machine
end

