-- ==== Sys2Proof/Machine/IndexAddress.lean ====
section
/-! DEFINITION. Machine/IndexAddress.lean: the instructions of 43_index_address.md. `I` adds modulo 65536, with no flag. -/
namespace Sys2Proof.Machine

/-- `LD I, addr` (R170). -/
def execLdI (nnn : Addr) (s : State) : Answer := (s.setI (zextAddr nnn)).complete .next

/-- `JP V0, addr` (R171): the base as `JP0_BASE` says, plus `x[0]`, modulo 65536. -/
def execJpV0 (nnn : Addr) (s : State) : Answer := s.complete (.jump (s.jumpBase nnn + zextByte (s.reg 0)))

/-- `LD F, Vx` (R172). -/
def execLdF (x : Reg) (s : State) : Answer := (s.setI (glyphAddr (s.reg x))).complete .next

/-- `ADD I, Vx` (R173). -/
def execAddI (x : Reg) (s : State) : Answer := (s.setI (s.I + zextByte (s.reg x))).complete .next

end Sys2Proof.Machine
end

