-- ==== Sys2Proof/Machine/MemoryBlock.lean ====
section
/-! DEFINITION. Machine/MemoryBlock.lean: the loads and stores of 46_memory_block_bcd.md. None of them changes `I` (R198). -/
namespace Sys2Proof.Machine

/-- `LD B, Vx` (R195). -/
def execLdB (x : Reg) (s : State) : Answer := (s.writeBytes (s.dataAddr 0) (bcdDigits (s.reg x))).complete .next

/-- `LD [I], Vx` (R196). -/
def execStoreRegs (x : Reg) (s : State) : Answer :=
  (s.writeBytes (s.dataAddr 0) ((blockRegs x).map s.reg)).complete .next

/-- `LD Vx, [I]` (R197). -/
def execLoadRegs (x : Reg) (s : State) : Answer := (s.loadBlock (s.dataAddr 0) (blockRegs x)).complete .next

end Sys2Proof.Machine
end

