-- ==== Sys2Proof/Machine/Random.lean ====
section
/-! DEFINITION. Machine/Random.lean: the instruction of 44_random.md. -/
namespace Sys2Proof.Machine

/-- `RND Vx, byte` (R180): the tick's random byte, masked. -/
def execRnd (x : Reg) (nn : Byte) (s : State) : Answer := (s.setReg x (s.rnd &&& nn)).complete .next

end Sys2Proof.Machine
end

