-- ==== Sys2Proof/Machine/RegisterAlu.lean ====
section
/-! DEFINITION. Machine/RegisterAlu.lean: the instructions of 42_register_alu.md. Operands are read before any write (R16);
byte arithmetic wraps modulo 256 (R162). -/
namespace Sys2Proof.Machine

/-- `LD Vx, byte` (R150). -/
def execLdByte (x : Reg) (nn : Byte) (s : State) : Answer := (s.setReg x nn).complete .next

/-- `ADD Vx, byte` (R151): no flag effect. -/
def execAddByte (x : Reg) (nn : Byte) (s : State) : Answer := (s.setReg x (s.reg x + nn)).complete .next

/-- `LD Vx, Vy` (R152). -/
def execLdReg (x y : Reg) (s : State) : Answer := (s.setReg x (s.reg y)).complete .next

/-- `OR Vx, Vy` (R153): `x[15]` is not cleared. -/
def execOrReg (x y : Reg) (s : State) : Answer := (s.setReg x (s.reg x ||| s.reg y)).complete .next

/-- `AND Vx, Vy` (R154). -/
def execAndReg (x y : Reg) (s : State) : Answer := (s.setReg x (s.reg x &&& s.reg y)).complete .next

/-- `XOR Vx, Vy` (R155). -/
def execXorReg (x y : Reg) (s : State) : Answer := (s.setReg x (s.reg x ^^^ s.reg y)).complete .next

/-- `ADD Vx, Vy` (R156). -/
def execAddReg (x y : Reg) (s : State) : Answer :=
  (s.setResultFlag x (s.reg x + s.reg y) (carryFlag (s.reg x) (s.reg y))).complete .next

/-- `SUB Vx, Vy` (R157). -/
def execSubReg (x y : Reg) (s : State) : Answer :=
  (s.setResultFlag x (s.reg x - s.reg y) (greaterFlag (s.reg x) (s.reg y))).complete .next

/-- `SHR Vx` (R158): in place; the `Y` nibble is ignored. -/
def execShr (x _y : Reg) (s : State) : Answer :=
  (s.setResultFlag x (s.reg x >>> 1) (rightShiftFlag (s.reg x))).complete .next

/-- `SUBN Vx, Vy` (R159). -/
def execSubnReg (x y : Reg) (s : State) : Answer :=
  (s.setResultFlag x (s.reg y - s.reg x) (greaterFlag (s.reg y) (s.reg x))).complete .next

/-- `SHL Vx` (R160): in place; the `Y` nibble is ignored. -/
def execShl (x _y : Reg) (s : State) : Answer :=
  (s.setResultFlag x (s.reg x <<< 1) (leftShiftFlag (s.reg x))).complete .next

end Sys2Proof.Machine
end

