-- ==== Sys2Proof/Machine/SpriteDraw.lean ====
section
/-! DEFINITION. Machine/SpriteDraw.lean: the instruction of 45_sprite_draw.md. -/
namespace Sys2Proof.Machine

/-- `DRW Vx, Vy, nibble` (R185): the `n` sprite bytes from `I` are drawn at the origin of `x[X]` and `x[Y]`; the collision goes to
`x[15]` last; the frame is marked changed even when no row is drawn (R189). -/
def execDrw (x y : Reg) (n : Nat) (s : State) : Answer :=
  let drawn := drawRows (spriteColumn (s.reg x)) (spriteRow (s.reg y)) (s.readBytes (s.dataAddr 0) n) (s.fb, false)
  State.complete .next
    (State.setReg flagReg (flagOf drawn.2) { s.noteReads (s.dataAddr 0) n with fb := drawn.1, fc := true })

end Sys2Proof.Machine
end

