-- ==== Sys2Proof/Machine/TimersKeys.lean ====
section
/-! DEFINITION. Machine/TimersKeys.lean: the instructions of 47_timers_keys.md. They see the timers after this tick's decrement and
this tick's keypad snapshot (R110, R123). -/
namespace Sys2Proof.Machine

/-- `LD Vx, DT` (R205). -/
def execLdVxDt (x : Reg) (s : State) : Answer := (s.setReg x s.dt).complete .next

/-- `LD DT, Vx` (R206). -/
def execLdDtVx (x : Reg) (s : State) : Answer := State.complete .next { s with dt := s.reg x }

/-- `LD ST, Vx` (R207). -/
def execLdStVx (x : Reg) (s : State) : Answer := State.complete .next { s with st := s.reg x }

/-- What `LD Vx, K` leaves: the lowest pressed key in `x[X]`, or nothing changed (R208). -/
def State.takeKey (x : Reg) (s : State) : State :=
  match leastKey s.kp with
  | some k => s.setReg x (BitVec.ofNat 8 k.val)
  | none => s

/-- The directive of `LD Vx, K`: advance when a key is down, else hold (R208). -/
def keyDirective (kp : Keypad) : Directive := if (leastKey kp).isSome then .next else .hold

/-- `LD Vx, K` (R208): it holds by leaving `pc` unchanged, and keeps no state between ticks. -/
def execLdVxK (x : Reg) (s : State) : Answer := (s.takeKey x).complete (keyDirective s.kp)

end Sys2Proof.Machine
end

