-- ==== Sys2Proof/Machine/HostOps.lean ====
section
/-! DEFINITION. Machine/HostOps.lean: the host's transactions other than `Tick` (70_reset_and_hazards.md R250 to R252) and the
choice of the next transaction. None of them produces an output, so none leaves a report. -/
namespace Sys2Proof.Machine

/-- `PowerOn()` (R250). The parameters, the host's remaining transactions and the model's own fields stay; the sticky
markers are never cleared (R221; log entry 5). -/
def State.powerOn (s : State) : State :=
  { State.reset with cfg := s.cfg, host := s.host, draws := s.draws, notes := s.notes }

/-- `Reset()` (R251): memory outside the font table is not written. -/
def State.hostReset (s : State) : State :=
  { s with
    pc := 0x200
    x := Vector.replicate 16 0
    I := 0
    stack := Vector.replicate 16 0
    sp := 0
    dt := 0
    st := 0
    fb := blankFrame
    mem := Memory.writeList s.cfg fontBase s.cfg.font.toList s.mem
    kp := Vector.replicate 16 false
    fc := false
    report := none }

/-- `LoadProgram(bytes)` (R252): the first 3584 bytes from 0x200 on, `pc` to 0x200, nothing else. -/
def State.loadProgram (bytes : List Byte) (s : State) : State :=
  let loaded := { s with
    mem := Memory.writeList s.cfg progBase (bytes.take progMax) s.mem
    pc := 0x200
    report := none }
  if progMax < bytes.length then loaded.note .loadTruncated else loaded

/-- The host's next transaction and the state once it has been taken from the queue. With nothing queued it is a `Tick`
whose inputs are free values (R41, R42; log entry 2). -/
def State.nextOp (s : State) : HostOp × State :=
  match s.host with
  | op :: rest => (op, { s with host := rest })
  | [] => (.tick (Config.freeKeypad s.draws) (Config.freeRnd s.draws), { s with draws := s.draws + 1 })

end Sys2Proof.Machine
end

