-- ==== Sys2Proof/Machine/Tick.lean ====
section
/-! DEFINITION. Machine/Tick.lean: the execution step of 40_execution_cycle.md R110 and the dispatch of a host transaction. -/
namespace Sys2Proof.Machine

/-- Steps 5 to 8: decode the word and execute it; a word that matches no row is a no-op (R115, R116, R118). -/
def runWord (w : Word) (s : State) : Answer :=
  match decodeWord w with
  | some i => exec i s
  | none => execUnrecognised s

/-- `Tick(keypad, rnd)` (R110): begin, fetch, run, report. -/
def tick (keypad : Keypad) (rnd : Byte) (s : State) : Answer :=
  let begun := s.beginTick keypad rnd
  finishTick (runWord begun.fetchWord begun.noteFetch)

/-- One host transaction, whole and atomic (R40). -/
def transact (op : HostOp) (s : State) : Answer :=
  match op with
  | .powerOn => .next s.powerOn
  | .reset => .next s.hostReset
  | .loadProgram bytes => .next (s.loadProgram bytes)
  | .tick keypad rnd => tick keypad rnd s

end Sys2Proof.Machine
end

