-- ==== Sys2Proof/Machine/Step.lean ====
section
/-! DEFINITION. Machine/Step.lean: one step of the model, which is one transaction of the host (R40; log entry 2), and the placing
of an instruction where the next step fetches it. -/
namespace Sys2Proof.Machine

/-- One step: the host's next transaction. -/
def step (s : State) : Host.Outcome State Fault Refusal := transact s.nextOp.1 s.nextOp.2

/-- `s` with the word `w` of `nbits` bits stored where the next step fetches: at `pc`, high byte first (R53). What else that
takes, and nothing more: where `pc` leaves no room for two bytes of memory (R58) it is set to 0x200, and where the
next transaction queued is no `Tick`, a `Tick` with no key down and random byte 0 is put before it (log entry 7). -/
def State.withFetchWord (s : State) (nbits w : Nat) : State :=
  let word := BitVec.ofNat 16 (w % 2 ^ nbits)
  let base : Word := if s.pc.toNat + 1 ≤ 0xFFF then s.pc else 0x200
  let host := match s.host with
    | [] => []
    | .tick keypad rnd :: rest => .tick keypad rnd :: rest
    | ops => .tick (Vector.replicate 16 false) 0 :: ops
  { s with pc := base, mem := Memory.writeList s.cfg base.toNat (wordBytes word) s.mem, host := host }

end Sys2Proof.Machine
end

