-- ==== Sys2Proof/Safety.lean ====
section
/-! DEFINITION. Safety.lean: the terms in which claims about the machine are stated: what a step must keep, what stays inside the
document's legal domain, and which parts of the state two states share. -/
namespace Sys2Proof.Machine

/-- The parts of `State`, one per field, named as the fields are. -/
inductive Part where
  | x | I | pc | dt | st | stack | sp | fb | kp | fc | mem | rnd | report | host | draws | notes | cfg
  deriving DecidableEq, Repr

/-- Two states agree on a part. For memory: the cells listed are the same and every address reads the same. -/
def Part.same (s t : State) : Part → Prop
  | .x => t.x = s.x
  | .I => t.I = s.I
  | .pc => t.pc = s.pc
  | .dt => t.dt = s.dt
  | .st => t.st = s.st
  | .stack => t.stack = s.stack
  | .sp => t.sp = s.sp
  | .fb => t.fb = s.fb
  | .kp => t.kp = s.kp
  | .fc => t.fc = s.fc
  | .mem => t.mem = s.mem ∧ ∀ a, t.readByte a = s.readByte a
  | .rnd => t.rnd = s.rnd
  | .report => t.report = s.report
  | .host => t.host = s.host
  | .draws => t.draws = s.draws
  | .notes => t.notes = s.notes
  | .cfg => t.cfg = s.cfg

/-- The frame: from `s` to `t` every part is unchanged but the listed ones. -/
def KeepsAllBut (changed : List Part) (s t : State) : Prop := ∀ p, p ∉ changed → p.same s t

/-- What every step keeps: memory in its canonical form, so inside 0x000 to 0xFFF and equal as data when equal as contents; and a
report, where there is one, that says what R43 and R44 say of the state it stands in. -/
def State.Inv (s : State) : Prop :=
  Memory.wf s.cfg s.mem ∧ ∀ r, s.report = some r → r.frameChanged = s.fc ∧ r.soundActive = decide (0 < s.st.toNat)

/-- No marker of a condition outside the document's legal domain is set: the three that R221 calls fault markers (D32). A claim
that takes this as a premise of its last state does not rest on decisions D14, D16 and D17. -/
def State.inDomain (s : State) : Prop :=
  s.notes.stackOverflow = false ∧ s.notes.stackUnderflow = false ∧ s.notes.keyIndexRange = false

/-- `k` steps lead from `s` to `t` without a stop. -/
def Reaches : Nat → State → State → Prop
  | 0, s, t => t = s
  | k + 1, s, t => ∃ u, step s = .next u ∧ Reaches k u t

/-- A run of `k` steps that stays in the legal domain. -/
def SafeRun (k : Nat) (s t : State) : Prop := Reaches k s t ∧ t.inDomain

/-- The sprite's pixel that `DRW Vx, Vy, n` lays on the cell in row `r`, column `c` (R185 to R187): the row offset and the column
offset from the origin, wrapping, select a byte from `I` on and its bit, bit 7 being column offset 0; outside the `n` rows and
8 columns there is none. -/
def State.spritePixel (s : State) (x y : Reg) (n : Nat) (r : Fin 32) (c : Fin 64) : Bool :=
  let dr := (r.val + 32 - (s.reg y).toNat % 32) % 32
  let dc := (c.val + 64 - (s.reg x).toNat % 64) % 64
  decide (dr < n) && decide (dc < 8) && (s.readByte (s.I.toNat + dr)).getLsbD (7 - dc)

end Sys2Proof.Machine
end

