-- ==== Sys2Proof/Certificates/Slice0/Obligations.lean ====
section
/-! DEFINITION. Certificates/Slice0/Obligations.lean: the statements about the CHIP-8 core. `KeepsAllBut l s t` is the frame: every part of
the state outside `l` is unchanged, memory both as cells and byte by byte. A statement "there is `t` with `exec i s = next t`" is also
the completion statement of its instructions. -/
open Sys2Proof Sys2Proof.Machine

/-! Reset, invariant, completion of a step. -/

/-- R38, `PowerOn` column, R250: every element at reset. That memory outside the font is 0 and `pc` is 0x200 rests on the spec's D23. -/
def Obligations.ResetHoldsPowerOnValues : Prop :=
  (∀ r, State.reset.reg r = 0) ∧ State.reset.I = 0 ∧ State.reset.pc = 0x200 ∧ State.reset.dt = 0 ∧ State.reset.st = 0 ∧
    (∀ j : Fin 16, State.reset.stack[j] = 0) ∧ State.reset.sp = 0 ∧ (∀ (r : Fin 32) (c : Fin 64), State.reset.fb[r][c] = false) ∧
    (∀ k : Key, State.reset.kp[k] = false) ∧ State.reset.fc = false ∧
    (∀ k : Fin 80, State.reset.readByte (0x050 + k.val) = State.reset.cfg.font[k]) ∧
    (∀ a, a < 0x050 ∨ 0x09F < a → State.reset.readByte a = 0)

/-- `Inv` holds at reset. -/
def Obligations.ResetMeetsInvariant : Prop := State.reset.Inv

/-- Whatever the host's transaction and whatever the word fetched, a step answers a next state (R110, R220). -/
def Obligations.StepAlwaysAnswersNext : Prop := ∀ s, ∃ t, step s = .next t

/-- Every step keeps `Inv`: memory stays canonical and inside 0x000 to 0xFFF, and a report says what R43 and R44 say. -/
def Obligations.StepKeepsInvariant : Prop := ∀ s t, s.Inv → step s = .next t → t.Inv

/-- No step clears a marker of R221 and none changes the parameters of R9. -/
def Obligations.StepKeepsMarkersAndParameters : Prop :=
  ∀ s t, step s = .next t → (∀ c, s.notes.has c = true → t.notes.has c = true) ∧ t.cfg = s.cfg

/-! Encoding. -/

/-- Decoding the bytes of a well-formed instruction gives it back, with the bytes after it untouched (R92). -/
def Obligations.DecodeInvertsEncode : Prop := ∀ i rest, i.WellFormed → decode (encode i ++ rest) = .ok (i, rest)

/-- A recognised word decodes to a well-formed instruction whose encoding is that word, so no bit of a word is dropped. -/
def Obligations.EncodeInvertsDecode : Prop := ∀ w i, decodeWord w = some i → i.WellFormed ∧ encodeWord i = w

/-- R84: "The 34 rows are pairwise disjoint (no word satisfies two)". -/
def Obligations.NoWordSelectsTwoRows : Prop :=
  opcodeTable.length = 34 ∧ ∀ (w : Word) (j k : Nat) (r q : Row), opcodeTable[j]? = some r → opcodeTable[k]? = some q →
    r.selects w = true → q.selects w = true → j = k

/-- R87: the unrecognised words are exactly those of its table, by major opcode, low nibble and low byte. -/
def Obligations.UnrecognisedWordsAreThoseListed : Prop :=
  ∀ w : Word, decodeWord w = none ↔
    (w.toNat / 4096 = 0x0 ∧ w.toNat ≠ 0x00E0 ∧ w.toNat ≠ 0x00EE) ∨
    (w.toNat / 4096 = 0x5 ∧ w.toNat % 16 ≠ 0) ∨
    (w.toNat / 4096 = 0x8 ∧ w.toNat % 16 ∈ [8, 9, 0xA, 0xB, 0xC, 0xD, 0xF]) ∨
    (w.toNat / 4096 = 0x9 ∧ w.toNat % 16 ≠ 0) ∨
    (w.toNat / 4096 = 0xE ∧ w.toNat % 256 ∉ [0x9E, 0xA1]) ∨
    (w.toNat / 4096 = 0xF ∧ w.toNat % 256 ∉ [0x07, 0x0A, 0x15, 0x18, 0x1E, 0x29, 0x33, 0x55, 0x65])

/-- Words written out from R86 and R93, one or more of each family, and what they stand for. -/
def Obligations.SpecWordsDecode : Prop :=
  decodeWord 0x6105 = some (.ldByte 1 0x05) ∧ decodeWord 0xD125 = some (.drw 1 2 5) ∧ decodeWord 0x220C = some (.call 0x20C) ∧
    decodeWord 0xF265 = some (.loadRegs 2) ∧ decodeWord 0x8AB4 = some (.addReg 0xA 0xB) ∧ decodeWord 0x5121 = none ∧
    decodeWord 0xB210 = some (.jpV0 0x210) ∧ decodeWord 0xC30F = some (.rnd 3 0x0F) ∧ decodeWord 0xF10A = some (.ldVxK 1)

/-! The step. -/

/-- The model's own convention (log entry 2): the host's transactions are taken in order, and with none queued the next one is a
`Tick` on free inputs. -/
def Obligations.NextTransactionIsHeadOfQueue : Prop :=
  ∀ s : State, (∀ op rest, s.host = op :: rest → s.nextOp = (op, { s with host := rest })) ∧
    (s.host = [] → ∃ keypad rnd, s.nextOp = (.tick keypad rnd, { s with draws := s.draws + 1 }))

/-- R110: when the bytes at `pc` decode to a well-formed instruction, a tick is that instruction run on the state with the keypad
latched, `fc` cleared, both timers counted down and the fetch's notes made, and then the outputs sampled. The random port is log entry 3,
the report log entry 4. -/
def Obligations.StepRunsDecodedInstruction : Prop :=
  ∀ s keypad rnd s0 i rest, s.nextOp = (.tick keypad rnd, s0) →
    decode [s0.readByte s0.pc.toNat, s0.readByte (s0.pc.toNat + 1)] = .ok (i, rest) → i.WellFormed →
    ∃ t, exec i { s0 with
        kp := keypad
        fc := false
        dt := if s0.dt = 0 then 0 else s0.dt - 1
        st := if s0.st = 0 then 0 else s0.st - 1
        rnd := rnd
        notes := if 0xFFF ≤ s0.pc.toNat then s0.notes.mark .oobRead else s0.notes } = .next t ∧
      step s = .next { t with report := some ⟨t.fc, decide (0 < t.st.toNat)⟩ }

/-- R118: an unrecognised word, 0x0000 among them, changes nothing but `pc` (by 2) and what steps 1 to 3 and 9 of every tick change
(R111 to R113, R121, D29); the condition is noted, and a fetch beyond 0xFFF too (R55, R58). That the random byte stays at a port is log
entry 3, that the outputs stand in a report log entry 4. -/
def Obligations.UnrecognisedWordIsNoOp : Prop :=
  decodeWord 0x0000 = none ∧
  ∀ s keypad rnd s0, s.nextOp = (.tick keypad rnd, s0) →
    decodeWord (s0.readByte s0.pc.toNat ++ s0.readByte (s0.pc.toNat + 1)) = none →
    step s = .next { s0 with
      kp := keypad
      fc := false
      dt := if s0.dt = 0 then 0 else s0.dt - 1
      st := if s0.st = 0 then 0 else s0.st - 1
      rnd := rnd
      pc := s0.pc + 2
      report := some ⟨false, decide (1 < s0.st.toNat)⟩
      notes := (if 0xFFF ≤ s0.pc.toNat then s0.notes.mark .oobRead else s0.notes).mark .unrecognisedWord }

/-- R58: at 0xFFF the low byte of the word reads 0; from 0x1000 on the word is 0x0000, an unrecognised word, and the tick moves `pc` by 2. -/
def Obligations.FetchOutsideMemoryIsNoOp : Prop :=
  (∀ s : State, s.pc = 0xFFF → s.fetchWord = s.readByte 0xFFF ++ (0 : Byte)) ∧
  ∀ s keypad rnd s0, s.nextOp = (.tick keypad rnd, s0) → 0x1000 ≤ s0.pc.toNat →
    s0.fetchWord = 0 ∧ ∃ t, step s = .next t ∧ t.pc = s0.pc + 2 ∧ t.notes.has .oobRead = true ∧
      t.notes.has .unrecognisedWord = true ∧ KeepsAllBut [.kp, .fc, .dt, .st, .rnd, .pc, .report, .notes] s0 t

/-- R113: every tick counts each timer down by one, stopping at 0, whatever it executes; only `LD DT, Vx` and `LD ST, Vx` then replace
the count. -/
def Obligations.EveryTickCountsTimersDown : Prop :=
  ∀ s keypad rnd s0 t, s.nextOp = (.tick keypad rnd, s0) → step s = .next t →
    ((∀ x, decodeWord s0.fetchWord ≠ some (.ldDtVx x)) → t.dt.toNat = s0.dt.toNat - 1) ∧
    ((∀ x, decodeWord s0.fetchWord ≠ some (.ldStVx x)) → t.st.toNat = s0.st.toNat - 1)

/-- R43: the output `frame_changed` of a tick is `fc`, and is 1 exactly when the instruction executed was `CLS` or `DRW`. -/
def Obligations.FrameChangedReportsClearOrDraw : Prop :=
  ∀ s keypad rnd s0 t, s.nextOp = (.tick keypad rnd, s0) → step s = .next t →
    ∃ out, t.report = some out ∧ out.frameChanged = t.fc ∧
      (out.frameChanged = true ↔ decodeWord s0.fetchWord = some .cls ∨ ∃ x y n, decodeWord s0.fetchWord = some (.drw x y n))

/-- R44: the output `sound_active` of a tick is `st > 0` after its instruction; R207: a tick that executes `LD ST, Vx` reports 1 when
`x[X] > 0`. -/
def Obligations.SoundActiveReportsSoundTimer : Prop :=
  ∀ s keypad rnd s0 t, s.nextOp = (.tick keypad rnd, s0) → step s = .next t →
    ∃ out, t.report = some out ∧ out.soundActive = decide (0 < t.st.toNat) ∧
      ∀ x, decodeWord s0.fetchWord = some (.ldStVx x) → (out.soundActive = true ↔ 0 < (s0.reg x).toNat)

/-- R208's property, at the level of a tick: the key-wait leaves `pc` and every register unchanged in a tick with no key pressed, and in
a tick with a key pressed advances once, the lowest pressed key (D15) in `x[X]`. -/
def Obligations.KeyWaitHoldsUntilKeyPressed : Prop :=
  ∀ s keypad rnd s0 x, s.nextOp = (.tick keypad rnd, s0) → decodeWord s0.fetchWord = some (.ldVxK x) →
    ∃ t, step s = .next t ∧ KeepsAllBut [.x, .pc, .kp, .fc, .dt, .st, .rnd, .report, .notes] s0 t ∧
      ((∀ k : Key, keypad[k] = false) → t.pc = s0.pc ∧ ∀ q, t.reg q = s0.reg q) ∧
      (∀ k : Key, keypad[k] = true → (∀ j : Key, j < k → keypad[j] = false) →
        t.pc = s0.pc + 2 ∧ (t.reg x).toNat = k.val ∧ ∀ q, q ≠ x → t.reg q = s0.reg q)

/-- R181: in a tick whose instruction is not `RND` the random byte has no effect; the two next states differ at most in the input port
that holds it. -/
def Obligations.RandomByteAffectsOnlyRnd : Prop :=
  ∀ keypad rnd rnd' s, (∀ x nn, decodeWord s.fetchWord ≠ some (.rnd x nn)) →
    ∃ t t', tick keypad rnd s = .next t ∧ tick keypad rnd' s = .next t' ∧ KeepsAllBut [.rnd] t t'

/-- The word that the host places is the instruction the next step runs. -/
def Obligations.PlacedWordIsRunNext : Prop :=
  ∀ (s : State) (w : Nat) (i : Instr), Memory.wf s.cfg s.mem → decodeTableWord 16 w = some i →
    ∃ keypad rnd s0 t, (s.withFetchWord 16 w).nextOp = (.tick keypad rnd, s0) ∧
      exec i (s0.beginTick keypad rnd) = .next t ∧ step (s.withFetchWord 16 w) = .next t.endTick

/-! Memory. -/

/-- R55: a byte read inside memory gives the cell and notes nothing, outside it gives 0 and notes `OOB_READ`; the two-byte read of the
fetch is two of them, high byte first, each checked separately; the value read does not depend on the note. -/
def Obligations.ByteReadFollowsBoundsRule : Prop :=
  ∀ (s : State) (a : Nat),
    (a ≤ 0xFFF → s.readByte a = s.mem.read s.cfg a ∧ s.noteRead a = s) ∧
    (0xFFF < a → s.readByte a = 0 ∧ s.noteRead a = s.note .oobRead) ∧
    s.fetchWord = s.readByte s.pc.toNat ++ s.readByte (s.pc.toNat + 1) ∧
    s.noteFetch = (s.noteRead s.pc.toNat).noteRead (s.pc.toNat + 1) ∧ (∀ b, (s.noteRead a).readByte b = s.readByte b)

/-- R65: a word stored by `LD [I], Vx` is the word fetched at its address afterwards. -/
def Obligations.StoredWordIsFetched : Prop :=
  ∀ (x j k : Reg) (s t : State) (p : Word), Memory.wf s.cfg s.mem → exec (.storeRegs x) s = .next t → k.val = j.val + 1 → k ≤ x →
    p.toNat = s.I.toNat + j.val → p.toNat + 1 ≤ 0xFFF → State.fetchWord { t with pc := p } = s.reg j ++ s.reg k

/-! Control flow. -/

/-- R130. -/
def Obligations.ClsClearsFrameBuffer : Prop :=
  ∀ s, ∃ t, exec .cls s = .next t ∧ (∀ (r : Fin 32) (c : Fin 64), t.fb[r][c] = false) ∧ t.fc = true ∧ t.pc = s.pc + 2 ∧
    KeepsAllBut [.fb, .fc, .pc] s t

/-- R131; the clamp at an empty stack is the spec's D17, that the popped entry stays is D18. -/
def Obligations.RetPopsReturnAddress : Prop :=
  ∀ s, ∃ t, exec .ret s = .next t ∧ KeepsAllBut [.pc, .sp, .notes] s t ∧
    (∀ j : Fin 16, s.sp.val = j.val + 1 → t.pc = s.stack[j] ∧ t.sp.val = j.val ∧ t.notes = s.notes) ∧
    (s.sp.val = 0 → t.pc = s.stack[0] ∧ t.sp.val = 0 ∧ t.notes = s.notes.mark .stackUnderflow)

/-- R132. -/
def Obligations.JpJumpsToOperand : Prop :=
  ∀ nnn s, ∃ t, exec (.jp nnn) s = .next t ∧ t.pc.toNat = nnn.toNat ∧ KeepsAllBut [.pc] s t

/-- R133; that a push on a full stack is dropped is the spec's D16. -/
def Obligations.CallPushesReturnAddress : Prop :=
  ∀ nnn s, ∃ t, exec (.call nnn) s = .next t ∧ t.pc.toNat = nnn.toNat ∧ KeepsAllBut [.pc, .stack, .sp, .notes] s t ∧
    (∀ j : Fin 16, s.sp.val = j.val → t.stack[j] = s.pc + 2 ∧ (∀ k : Fin 16, k ≠ j → t.stack[k] = s.stack[k]) ∧
      t.sp.val = j.val + 1 ∧ t.notes = s.notes) ∧
    (s.sp.val = 16 → t.stack = s.stack ∧ t.sp = s.sp ∧ t.notes = s.notes.mark .stackOverflow)

/-- A call and the return that meets the stack as the call left it: the program counter is at the instruction after the call and the stack
pointer as before (R131, R133). -/
def Obligations.CallThenReturnComesBack : Prop :=
  ∀ nnn s t u, s.sp.val < 16 → exec (.call nnn) s = .next t → u.stack = t.stack → u.sp = t.sp →
    ∃ v, exec .ret u = .next v ∧ v.pc = s.pc + 2 ∧ v.sp = s.sp ∧ v.notes = u.notes

/-- R134, R135: `SE` and `SNE` with an immediate. -/
def Obligations.ByteSkipsCompareRegister : Prop :=
  ∀ x nn s,
    (∃ t, exec (.seByte x nn) s = .next t ∧ t.pc = (if s.reg x = nn then s.pc + 4 else s.pc + 2) ∧ KeepsAllBut [.pc] s t) ∧
    (∃ t, exec (.sneByte x nn) s = .next t ∧ t.pc = (if s.reg x = nn then s.pc + 2 else s.pc + 4) ∧ KeepsAllBut [.pc] s t)

/-- R136, R137: `SE` and `SNE` with two registers. -/
def Obligations.RegisterSkipsCompareRegisters : Prop :=
  ∀ x y s,
    (∃ t, exec (.seReg x y) s = .next t ∧ t.pc = (if s.reg x = s.reg y then s.pc + 4 else s.pc + 2) ∧ KeepsAllBut [.pc] s t) ∧
    (∃ t, exec (.sneReg x y) s = .next t ∧ t.pc = (if s.reg x = s.reg y then s.pc + 2 else s.pc + 4) ∧ KeepsAllBut [.pc] s t)

/-- R138, R139: the key is the register's low four bits; which register names the key is the spec's G8, the low bits are D14. -/
def Obligations.KeySkipsReadLatch : Prop :=
  ∀ (x : Reg) (s : State) (k : Key), k.val = (s.reg x).toNat % 16 →
    (∃ t, exec (.skp x) s = .next t ∧ t.pc = (if s.kp[k] = true then s.pc + 4 else s.pc + 2) ∧
      t.notes = (if 15 < (s.reg x).toNat then s.notes.mark .keyIndexRange else s.notes) ∧ KeepsAllBut [.pc, .notes] s t) ∧
    (∃ t, exec (.sknp x) s = .next t ∧ t.pc = (if s.kp[k] = true then s.pc + 2 else s.pc + 4) ∧
      t.notes = (if 15 < (s.reg x).toNat then s.notes.mark .keyIndexRange else s.notes) ∧ KeepsAllBut [.pc, .notes] s t)

/-- R119, R120: after every instruction `pc` is 2 further, but for the jumps, the skips (2 or 4) and the key-wait (2 or 0). -/
def Obligations.OnlyListedInstructionsLeaveSequence : Prop :=
  ∀ i s t, exec i s = .next t → t.pc = s.pc + 2 ∨
    (t.pc = s.pc + 4 ∧ ((∃ x nn, i = .seByte x nn ∨ i = .sneByte x nn) ∨ (∃ x y, i = .seReg x y ∨ i = .sneReg x y) ∨
      ∃ x, i = .skp x ∨ i = .sknp x)) ∨
    (t.pc = s.pc ∧ ∃ x, i = .ldVxK x) ∨
    (i = .ret ∨ ∃ nnn, i = .jp nnn ∨ i = .call nnn ∨ i = .jpV0 nnn)

/-! Registers and flags. -/

/-- R150, R151, R152. -/
def Obligations.LoadsCopyAndImmediateAdd : Prop :=
  ∀ x y nn s,
    (∃ t, exec (.ldByte x nn) s = .next t ∧ t.pc = s.pc + 2 ∧ KeepsAllBut [.x, .pc] s t ∧
      t.reg x = nn ∧ ∀ q, q ≠ x → t.reg q = s.reg q) ∧
    (∃ t, exec (.addByte x nn) s = .next t ∧ t.pc = s.pc + 2 ∧ KeepsAllBut [.x, .pc] s t ∧
      (t.reg x).toNat = ((s.reg x).toNat + nn.toNat) % 256 ∧ ∀ q, q ≠ x → t.reg q = s.reg q) ∧
    (∃ t, exec (.ldReg x y) s = .next t ∧ t.pc = s.pc + 2 ∧ KeepsAllBut [.x, .pc] s t ∧
      t.reg x = s.reg y ∧ ∀ q, q ≠ x → t.reg q = s.reg q)

/-- R153, R154, R155, bit by bit; that `x[15]` is not cleared is the spec's D13. -/
def Obligations.LogicIsBitwise : Prop :=
  ∀ x y s,
    (∃ t, exec (.orReg x y) s = .next t ∧ t.pc = s.pc + 2 ∧ KeepsAllBut [.x, .pc] s t ∧
      (∀ k, (t.reg x).getLsbD k = ((s.reg x).getLsbD k || (s.reg y).getLsbD k)) ∧ ∀ q, q ≠ x → t.reg q = s.reg q) ∧
    (∃ t, exec (.andReg x y) s = .next t ∧ t.pc = s.pc + 2 ∧ KeepsAllBut [.x, .pc] s t ∧
      (∀ k, (t.reg x).getLsbD k = ((s.reg x).getLsbD k && (s.reg y).getLsbD k)) ∧ ∀ q, q ≠ x → t.reg q = s.reg q) ∧
    (∃ t, exec (.xorReg x y) s = .next t ∧ t.pc = s.pc + 2 ∧ KeepsAllBut [.x, .pc] s t ∧
      (∀ k, (t.reg x).getLsbD k = ((s.reg x).getLsbD k ^^ (s.reg y).getLsbD k)) ∧ ∀ q, q ≠ x → t.reg q = s.reg q)

/-- R156, R161: the sum modulo 256 and the carry; with `X = 15` the flag stands (D12). -/
def Obligations.AddSetsCarryLast : Prop :=
  ∀ x y s, ∃ t, exec (.addReg x y) s = .next t ∧ t.pc = s.pc + 2 ∧ KeepsAllBut [.x, .pc] s t ∧
    t.reg 15 = (if 255 < (s.reg x).toNat + (s.reg y).toNat then 1 else 0) ∧
    (x ≠ 15 → (t.reg x).toNat = ((s.reg x).toNat + (s.reg y).toNat) % 256) ∧ ∀ q, q ≠ x → q ≠ 15 → t.reg q = s.reg q

/-- R157, R159, R161: the differences modulo 256; the flag is 1 exactly when the minuend is strictly greater; with `X = 15` it stands (D12). -/
def Obligations.SubtractionsSetStrictFlagLast : Prop :=
  ∀ x y s,
    (∃ t, exec (.subReg x y) s = .next t ∧ t.pc = s.pc + 2 ∧ KeepsAllBut [.x, .pc] s t ∧
      t.reg 15 = (if (s.reg y).toNat < (s.reg x).toNat then 1 else 0) ∧
      (x ≠ 15 → (t.reg x).toNat = ((s.reg x).toNat + 256 - (s.reg y).toNat) % 256) ∧ ∀ q, q ≠ x → q ≠ 15 → t.reg q = s.reg q) ∧
    (∃ t, exec (.subnReg x y) s = .next t ∧ t.pc = s.pc + 2 ∧ KeepsAllBut [.x, .pc] s t ∧
      t.reg 15 = (if (s.reg x).toNat < (s.reg y).toNat then 1 else 0) ∧
      (x ≠ 15 → (t.reg x).toNat = ((s.reg y).toNat + 256 - (s.reg x).toNat) % 256) ∧ ∀ q, q ≠ x → q ≠ 15 → t.reg q = s.reg q)

/-- R158, R160, R161: the shifts are of `x[X]` in place whatever the `Y` nibble (D10); the flag is the bit pushed out, written last (D12). -/
def Obligations.ShiftsMoveBitIntoFlag : Prop :=
  ∀ x y s,
    (∃ t, exec (.shr x y) s = .next t ∧ t.pc = s.pc + 2 ∧ KeepsAllBut [.x, .pc] s t ∧
      (t.reg 15).toNat = (s.reg x).toNat % 2 ∧
      (x ≠ 15 → (t.reg x).toNat = (s.reg x).toNat / 2) ∧ ∀ q, q ≠ x → q ≠ 15 → t.reg q = s.reg q) ∧
    (∃ t, exec (.shl x y) s = .next t ∧ t.pc = s.pc + 2 ∧ KeepsAllBut [.x, .pc] s t ∧
      (t.reg 15).toNat = (s.reg x).toNat / 128 ∧
      (x ≠ 15 → (t.reg x).toNat = (s.reg x).toNat * 2 % 256) ∧ ∀ q, q ≠ x → q ≠ 15 → t.reg q = s.reg q)

/-- R21: only the six flag writers, and the instructions that name register 15 as their destination, change `x[15]`; the six leave 0 or 1.
That no other instruction touches it is the spec's D13. -/
def Obligations.OnlyListedInstructionsWriteFlagRegister : Prop :=
  ∀ i s t, exec i s = .next t →
    (t.reg 15 ≠ s.reg 15 →
      (∃ x y, i = .addReg x y ∨ i = .subReg x y ∨ i = .subnReg x y ∨ i = .shr x y ∨ i = .shl x y) ∨ (∃ x y n, i = .drw x y n) ∨
      (∃ nn, i = .ldByte 15 nn ∨ i = .addByte 15 nn ∨ i = .rnd 15 nn) ∨
      (∃ y, i = .ldReg 15 y ∨ i = .orReg 15 y ∨ i = .andReg 15 y ∨ i = .xorReg 15 y) ∨
      i = .loadRegs 15 ∨ i = .ldVxDt 15 ∨ i = .ldVxK 15) ∧
    ((∃ x y, i = .addReg x y ∨ i = .subReg x y ∨ i = .subnReg x y ∨ i = .shr x y ∨ i = .shl x y) ∨ (∃ x y n, i = .drw x y n) →
      t.reg 15 = 0 ∨ t.reg 15 = 1)

/-- R180: the tick's random byte masked, for every random byte (an input under no law, D2); no bit outside the mask. -/
def Obligations.RandomByteIsMasked : Prop :=
  ∀ x nn s, ∃ t, exec (.rnd x nn) s = .next t ∧ t.pc = s.pc + 2 ∧ KeepsAllBut [.x, .pc] s t ∧
    (∀ k, (t.reg x).getLsbD k = (s.rnd.getLsbD k && nn.getLsbD k)) ∧ (t.reg x).toNat ≤ nn.toNat ∧ ∀ q, q ≠ x → t.reg q = s.reg q

/-! Index register. -/

/-- R170, R172. -/
def Obligations.IndexLoads : Prop :=
  ∀ nnn x s,
    (∃ t, exec (.ldI nnn) s = .next t ∧ t.pc = s.pc + 2 ∧ KeepsAllBut [.I, .pc] s t ∧ t.I.toNat = nnn.toNat) ∧
    (∃ t, exec (.ldF x) s = .next t ∧ t.pc = s.pc + 2 ∧ KeepsAllBut [.I, .pc] s t ∧ t.I.toNat = 0x050 + 5 * (s.reg x).toNat)

/-- R173; the wrap at 16 bits is the spec's D19. -/
def Obligations.AddIndexWraps : Prop :=
  ∀ x s, ∃ t, exec (.addI x) s = .next t ∧ t.pc = s.pc + 2 ∧ KeepsAllBut [.I, .pc] s t ∧
    t.I.toNat = (s.I.toNat + (s.reg x).toNat) % 65536

/-- R171, for both values of the parameter `JP0_BASE` (D9, D19); where `I` equals the operand they agree. -/
def Obligations.IndexedJumpForBothBases : Prop :=
  ∀ nnn s, ∃ t, exec (.jpV0 nnn) s = .next t ∧ KeepsAllBut [.pc] s t ∧
    (s.cfg.jp0Base = .index → t.pc.toNat = (s.I.toNat + (s.reg 0).toNat) % 65536) ∧
    (s.cfg.jp0Base = .operand → t.pc.toNat = (nnn.toNat + (s.reg 0).toNat) % 65536) ∧
    (s.I.toNat = nnn.toNat → t.pc.toNat = (nnn.toNat + (s.reg 0).toNat) % 65536)

/-! Which instruction reaches which state. -/

/-- R34, the written columns: which instructions change which element (implicit and explicit writes of registers are in the statements
of the instructions). -/
def Obligations.AccessTableWrites : Prop :=
  ∀ i s t, exec i s = .next t →
    (t.I ≠ s.I → (∃ nnn, i = .ldI nnn) ∨ ∃ x, i = .ldF x ∨ i = .addI x) ∧
    (t.stack ≠ s.stack ∨ t.sp ≠ s.sp → i = .ret ∨ ∃ nnn, i = .call nnn) ∧
    (t.dt ≠ s.dt → ∃ x, i = .ldDtVx x) ∧ (t.st ≠ s.st → ∃ x, i = .ldStVx x) ∧
    (t.fb ≠ s.fb ∨ t.fc ≠ s.fc → i = .cls ∨ ∃ x y n, i = .drw x y n) ∧
    ((∃ a, t.readByte a ≠ s.readByte a) ∨ t.mem ≠ s.mem → ∃ x, i = .ldB x ∨ i = .storeRegs x) ∧
    t.kp = s.kp ∧ t.rnd = s.rnd ∧ t.report = s.report ∧ t.host = s.host ∧ t.draws = s.draws ∧ t.cfg = s.cfg

/-- R221: an instruction leaves the legal domain exactly in the three cases the spec marks: `CALL` at `sp = 16`, `RET` at `sp = 0`, a key
skip with a register above 15. -/
def Obligations.LegalDomainIsLeftOnlyWhereMarked : Prop :=
  ∀ i s t, s.inDomain → exec i s = .next t →
    (¬ t.inDomain ↔ ((∃ nnn, i = .call nnn) ∧ s.sp.val = 16) ∨ (i = .ret ∧ s.sp.val = 0) ∨
      ∃ x, (i = .skp x ∨ i = .sknp x) ∧ 15 < (s.reg x).toNat)

/-! Sprite draw. -/

/-- R185 to R187: each cell becomes its exclusive OR with the sprite's pixel on it; `x[15]` is 1 exactly when a set cell met a set pixel;
`fc` is set even when nothing is drawn; the coordinates are read before `x[15]` is written (D27). -/
def Obligations.DrawXorsSpriteIntoFrame : Prop :=
  ∀ x y n s, Instr.WellFormed (.drw x y n) → ∃ t, exec (.drw x y n) s = .next t ∧ t.pc = s.pc + 2 ∧ t.fc = true ∧
    KeepsAllBut [.x, .pc, .fb, .fc, .notes] s t ∧
    (∀ (r : Fin 32) (c : Fin 64), t.fb[r][c] = (s.fb[r][c] ^^ s.spritePixel x y n r c)) ∧
    ((∃ (r : Fin 32) (c : Fin 64), s.fb[r][c] = true ∧ s.spritePixel x y n r c = true) → t.reg 15 = 1) ∧
    ((¬ ∃ (r : Fin 32) (c : Fin 64), s.fb[r][c] = true ∧ s.spritePixel x y n r c = true) → t.reg 15 = 0) ∧
    (∀ q, q ≠ 15 → t.reg q = s.reg q) ∧
    t.notes = (if 0 < n ∧ 0x1000 < s.I.toNat + n then s.notes.mark .oobRead else s.notes)

/-- R189: drawing the same sprite twice at the same place restores the frame buffer. The second draw's collision, by R185, is 1 exactly when
some pixel of the sprite fell on a cell that was 0 at first (log entry 9: R189's last item says it more broadly). -/
def Obligations.DrawTwiceRestoresFrame : Prop :=
  ∀ x y n s t, Instr.WellFormed (.drw x y n) → exec (.drw x y n) s = .next t →
    (t.reg x).toNat % 64 = (s.reg x).toNat % 64 → (t.reg y).toNat % 32 = (s.reg y).toNat % 32 →
    ∃ u, exec (.drw x y n) t = .next u ∧ u.fb = s.fb ∧
      (u.reg 15 = 1 ↔ ∃ (r : Fin 32) (c : Fin 64), s.fb[r][c] = false ∧ s.spritePixel x y n r c = true)

/-- R45: the flat view is row-major (D28). -/
def Obligations.FrameViewIsRowMajor : Prop :=
  ∀ (s : State) (r : Fin 32) (c : Fin 64) (k : Fin 2048), k.val = 64 * r.val + c.val → s.frameView k = s.fb[r][c]

/-! Memory block and BCD. -/

/-- R195, in every state whose memory is canonical: the three digits, each byte checked by itself (D33), `I` and `x[X]` unchanged. -/
def Obligations.BcdStoresThreeDigits : Prop :=
  ∀ x s, Memory.wf s.cfg s.mem → ∃ t, exec (.ldB x) s = .next t ∧ t.pc = s.pc + 2 ∧ KeepsAllBut [.pc, .mem, .notes] s t ∧
    (s.I.toNat ≤ 0xFFF → (t.readByte s.I.toNat).toNat = (s.reg x).toNat / 100) ∧
    (s.I.toNat + 1 ≤ 0xFFF → (t.readByte (s.I.toNat + 1)).toNat = (s.reg x).toNat / 10 % 10) ∧
    (s.I.toNat + 2 ≤ 0xFFF → (t.readByte (s.I.toNat + 2)).toNat = (s.reg x).toNat % 10) ∧
    (∀ a, a < s.I.toNat ∨ s.I.toNat + 2 < a → t.readByte a = s.readByte a) ∧
    t.notes = (if 0xFFF < s.I.toNat + 2 then s.notes.mark .oobWrite else s.notes)

/-- R196, in every state whose memory is canonical: `x[0]` to `x[X]` at `I` to `I + X`, each byte checked by itself (D33); `I` unchanged (R198, D20). -/
def Obligations.BlockStoreWritesRegisters : Prop :=
  ∀ x s, Memory.wf s.cfg s.mem → ∃ t, exec (.storeRegs x) s = .next t ∧ t.pc = s.pc + 2 ∧ KeepsAllBut [.pc, .mem, .notes] s t ∧
    (∀ r : Reg, r ≤ x → s.I.toNat + r.val ≤ 0xFFF → t.readByte (s.I.toNat + r.val) = s.reg r) ∧
    (∀ a, a < s.I.toNat ∨ s.I.toNat + x.val < a → t.readByte a = s.readByte a) ∧
    t.notes = (if 0xFFF < s.I.toNat + x.val then s.notes.mark .oobWrite else s.notes)

/-- R197: the bytes at `I` to `I + X` into `x[0]` to `x[X]`, 0 for a byte outside memory (D33); `I` unchanged (R198, D20). -/
def Obligations.BlockLoadReadsRegisters : Prop :=
  ∀ x s, ∃ t, exec (.loadRegs x) s = .next t ∧ t.pc = s.pc + 2 ∧ KeepsAllBut [.x, .pc, .notes] s t ∧
    (∀ q : Reg, q ≤ x → t.reg q = s.readByte (s.I.toNat + q.val)) ∧ (∀ q : Reg, x < q → t.reg q = s.reg q) ∧
    t.notes = (if 0xFFF < s.I.toNat + x.val then s.notes.mark .oobRead else s.notes)

/-- The document's round-trip property: a block stored inside memory and loaded back by any later state with the same memory and index
gives the registers back (R196 to R198). -/
def Obligations.BlockStoreLoadRoundTrip : Prop :=
  ∀ x s t u, Memory.wf s.cfg s.mem → s.I.toNat + x.val ≤ 0xFFF → exec (.storeRegs x) s = .next t →
    u.mem = t.mem → u.cfg = t.cfg → u.I = t.I →
    ∃ v, exec (.loadRegs x) u = .next v ∧ (∀ r : Reg, r ≤ x → v.reg r = s.reg r) ∧ v.I = s.I ∧ v.notes = u.notes

/-! Timers and keys. -/

/-- R205, R206, R207: the three moves between a register and a timer; the other timer is unchanged. -/
def Obligations.TimerMoves : Prop :=
  ∀ x s,
    (∃ t, exec (.ldVxDt x) s = .next t ∧ t.pc = s.pc + 2 ∧ KeepsAllBut [.x, .pc] s t ∧
      t.reg x = s.dt ∧ ∀ q, q ≠ x → t.reg q = s.reg q) ∧
    (∃ t, exec (.ldDtVx x) s = .next t ∧ t.pc = s.pc + 2 ∧ KeepsAllBut [.dt, .pc] s t ∧ t.dt = s.reg x) ∧
    (∃ t, exec (.ldStVx x) s = .next t ∧ t.pc = s.pc + 2 ∧ KeepsAllBut [.st, .pc] s t ∧ t.st = s.reg x)

/-- R208: with a key down the lowest one (D15) goes to `x[X]` and `pc` advances; with none `pc` and the registers stay. -/
def Obligations.KeyWaitTakesLowestKey : Prop :=
  ∀ x s, ∃ t, exec (.ldVxK x) s = .next t ∧ KeepsAllBut [.x, .pc] s t ∧
    (∀ k : Key, s.kp[k] = true → (∀ j : Key, j < k → s.kp[j] = false) →
      t.pc = s.pc + 2 ∧ (t.reg x).toNat = k.val ∧ ∀ q, q ≠ x → t.reg q = s.reg q) ∧
    ((∀ k : Key, s.kp[k] = false) → t.pc = s.pc ∧ t.x = s.x)

/-! Host transactions. -/

/-- R251: what `Reset` writes and what it leaves; that memory outside the font stays and that `I`, `kp`, `fc` are cleared is D24. The last
clauses are the model's choices: no report after it (log entry 4), the random port stays (log entry 3), the queue and the draw counter
stay (log entry 2), the markers survive (log entry 5), the parameters stay (log entry 10). -/
def Obligations.ResetClearsAllButMemory : Prop :=
  ∀ s s0, Memory.wf s.cfg s.mem → s.nextOp = (.reset, s0) → ∃ t, step s = .next t ∧ t.pc = 0x200 ∧ (∀ r, t.reg r = 0) ∧ t.I = 0 ∧
    (∀ j : Fin 16, t.stack[j] = 0) ∧ t.sp.val = 0 ∧ t.dt = 0 ∧ t.st = 0 ∧ (∀ (r : Fin 32) (c : Fin 64), t.fb[r][c] = false) ∧
    (∀ k : Key, t.kp[k] = false) ∧ t.fc = false ∧ t.report = none ∧
    (∀ k : Fin 80, t.readByte (0x050 + k.val) = s0.cfg.font[k]) ∧
    (∀ a, a < 0x050 ∨ 0x09F < a → t.readByte a = s0.readByte a) ∧
    t.rnd = s0.rnd ∧ t.host = s0.host ∧ t.draws = s0.draws ∧ t.notes = s0.notes ∧ t.cfg = s0.cfg

/-- R250, for every value of the parameters (R9): what `PowerOn` leaves. Memory outside the font is `MEM_INIT` (R38, R9), which is 0 at an
address it does not list, so all 0 by default (D23). The last clauses are the model's choices: no report after it (log entry 4), the
random port at 0 (log entry 3), the queue and the draw counter stay (log entry 2), the markers survive (log entry 5), the parameters stay
(log entry 10). -/
def Obligations.PowerOnInstallsInitialState : Prop :=
  ∀ s s0, s.nextOp = (.powerOn, s0) → ∃ t, step s = .next t ∧ t.pc = 0x200 ∧ (∀ r, t.reg r = 0) ∧ t.I = 0 ∧
    (∀ j : Fin 16, t.stack[j] = 0) ∧ t.sp.val = 0 ∧ t.dt = 0 ∧ t.st = 0 ∧ (∀ (r : Fin 32) (c : Fin 64), t.fb[r][c] = false) ∧
    (∀ k : Key, t.kp[k] = false) ∧ t.fc = false ∧
    (∀ k : Fin 80, t.readByte (0x050 + k.val) = s0.cfg.font[k]) ∧
    (∀ a, a ≤ 0xFFF → a < 0x050 ∨ 0x09F < a → t.readByte a = (s0.cfg.memInit.lookup a).getD 0) ∧
    (s0.cfg.memInit = [] → ∀ a, a < 0x050 ∨ 0x09F < a → t.readByte a = 0) ∧
    t.report = none ∧ t.rnd = 0 ∧ t.host = s0.host ∧ t.draws = s0.draws ∧ t.notes = s0.notes ∧ t.cfg = s0.cfg

/-- R252: the image's first 3584 bytes from 0x200 on, `pc`, and nothing else (`pc` and silent truncation are C4 and D25). -/
def Obligations.LoadProgramCopiesImage : Prop :=
  ∀ s s0 bytes, Memory.wf s.cfg s.mem → s.nextOp = (.loadProgram bytes, s0) →
    ∃ t, step s = .next t ∧ t.pc = 0x200 ∧ KeepsAllBut [.pc, .mem, .report, .notes] s0 t ∧
      (∀ k (h : k < bytes.length), k < 3584 → t.readByte (0x200 + k) = bytes[k]) ∧
      (∀ a, a < 0x200 ∨ 0x200 + bytes.length ≤ a → t.readByte a = s0.readByte a) ∧
      t.notes = (if 3584 < bytes.length then s0.notes.mark .loadTruncated else s0.notes)

/-- R253: the first word fetched after `LoadProgram` is the image's first two bytes. -/
def Obligations.LoadedProgramIsFetchedFirst : Prop :=
  ∀ s s0 hi lo rest, Memory.wf s.cfg s.mem → s.nextOp = (.loadProgram (hi :: lo :: rest), s0) →
    ∃ t, step s = .next t ∧ t.fetchWord = hi ++ lo
end

