-- ==== Sys2Proof/Laws/State.lean ====
section
/-! SUPPORT. Laws/State.lean: one lemma per field per update of the state, each true by rfl, so that no proof unfolds a record
update. -/
namespace Sys2Proof.Machine

/-! `note` -/
@[simp] theorem note_x (c : Condition) (s : State) : (s.note c).x = s.x := rfl
@[simp] theorem note_I (c : Condition) (s : State) : (s.note c).I = s.I := rfl
@[simp] theorem note_pc (c : Condition) (s : State) : (s.note c).pc = s.pc := rfl
@[simp] theorem note_dt (c : Condition) (s : State) : (s.note c).dt = s.dt := rfl
@[simp] theorem note_st (c : Condition) (s : State) : (s.note c).st = s.st := rfl
@[simp] theorem note_stack (c : Condition) (s : State) : (s.note c).stack = s.stack := rfl
@[simp] theorem note_sp (c : Condition) (s : State) : (s.note c).sp = s.sp := rfl
@[simp] theorem note_fb (c : Condition) (s : State) : (s.note c).fb = s.fb := rfl
@[simp] theorem note_kp (c : Condition) (s : State) : (s.note c).kp = s.kp := rfl
@[simp] theorem note_fc (c : Condition) (s : State) : (s.note c).fc = s.fc := rfl
@[simp] theorem note_mem (c : Condition) (s : State) : (s.note c).mem = s.mem := rfl
@[simp] theorem note_rnd (c : Condition) (s : State) : (s.note c).rnd = s.rnd := rfl
@[simp] theorem note_report (c : Condition) (s : State) : (s.note c).report = s.report := rfl
@[simp] theorem note_host (c : Condition) (s : State) : (s.note c).host = s.host := rfl
@[simp] theorem note_draws (c : Condition) (s : State) : (s.note c).draws = s.draws := rfl
@[simp] theorem note_notes (c : Condition) (s : State) : (s.note c).notes = s.notes.mark c := rfl
@[simp] theorem note_cfg (c : Condition) (s : State) : (s.note c).cfg = s.cfg := rfl

/-! `advance` -/
@[simp] theorem advance_x (d : Directive) (s : State) : (s.advance d).x = s.x := rfl
@[simp] theorem advance_I (d : Directive) (s : State) : (s.advance d).I = s.I := rfl
@[simp] theorem advance_pc (d : Directive) (s : State) : (s.advance d).pc = d.apply s.pc := rfl
@[simp] theorem advance_dt (d : Directive) (s : State) : (s.advance d).dt = s.dt := rfl
@[simp] theorem advance_st (d : Directive) (s : State) : (s.advance d).st = s.st := rfl
@[simp] theorem advance_stack (d : Directive) (s : State) : (s.advance d).stack = s.stack := rfl
@[simp] theorem advance_sp (d : Directive) (s : State) : (s.advance d).sp = s.sp := rfl
@[simp] theorem advance_fb (d : Directive) (s : State) : (s.advance d).fb = s.fb := rfl
@[simp] theorem advance_kp (d : Directive) (s : State) : (s.advance d).kp = s.kp := rfl
@[simp] theorem advance_fc (d : Directive) (s : State) : (s.advance d).fc = s.fc := rfl
@[simp] theorem advance_mem (d : Directive) (s : State) : (s.advance d).mem = s.mem := rfl
@[simp] theorem advance_rnd (d : Directive) (s : State) : (s.advance d).rnd = s.rnd := rfl
@[simp] theorem advance_report (d : Directive) (s : State) : (s.advance d).report = s.report := rfl
@[simp] theorem advance_host (d : Directive) (s : State) : (s.advance d).host = s.host := rfl
@[simp] theorem advance_draws (d : Directive) (s : State) : (s.advance d).draws = s.draws := rfl
@[simp] theorem advance_notes (d : Directive) (s : State) : (s.advance d).notes = s.notes := rfl
@[simp] theorem advance_cfg (d : Directive) (s : State) : (s.advance d).cfg = s.cfg := rfl

/-! `setReg` -/
@[simp] theorem setReg_x (r : Reg) (v : Byte) (s : State) : (s.setReg r v).x = s.x.set r v := rfl
@[simp] theorem setReg_I (r : Reg) (v : Byte) (s : State) : (s.setReg r v).I = s.I := rfl
@[simp] theorem setReg_pc (r : Reg) (v : Byte) (s : State) : (s.setReg r v).pc = s.pc := rfl
@[simp] theorem setReg_dt (r : Reg) (v : Byte) (s : State) : (s.setReg r v).dt = s.dt := rfl
@[simp] theorem setReg_st (r : Reg) (v : Byte) (s : State) : (s.setReg r v).st = s.st := rfl
@[simp] theorem setReg_stack (r : Reg) (v : Byte) (s : State) : (s.setReg r v).stack = s.stack := rfl
@[simp] theorem setReg_sp (r : Reg) (v : Byte) (s : State) : (s.setReg r v).sp = s.sp := rfl
@[simp] theorem setReg_fb (r : Reg) (v : Byte) (s : State) : (s.setReg r v).fb = s.fb := rfl
@[simp] theorem setReg_kp (r : Reg) (v : Byte) (s : State) : (s.setReg r v).kp = s.kp := rfl
@[simp] theorem setReg_fc (r : Reg) (v : Byte) (s : State) : (s.setReg r v).fc = s.fc := rfl
@[simp] theorem setReg_mem (r : Reg) (v : Byte) (s : State) : (s.setReg r v).mem = s.mem := rfl
@[simp] theorem setReg_rnd (r : Reg) (v : Byte) (s : State) : (s.setReg r v).rnd = s.rnd := rfl
@[simp] theorem setReg_report (r : Reg) (v : Byte) (s : State) : (s.setReg r v).report = s.report := rfl
@[simp] theorem setReg_host (r : Reg) (v : Byte) (s : State) : (s.setReg r v).host = s.host := rfl
@[simp] theorem setReg_draws (r : Reg) (v : Byte) (s : State) : (s.setReg r v).draws = s.draws := rfl
@[simp] theorem setReg_notes (r : Reg) (v : Byte) (s : State) : (s.setReg r v).notes = s.notes := rfl
@[simp] theorem setReg_cfg (r : Reg) (v : Byte) (s : State) : (s.setReg r v).cfg = s.cfg := rfl

/-! `setI` -/
@[simp] theorem setI_x (a : Word) (s : State) : (s.setI a).x = s.x := rfl
@[simp] theorem setI_I (a : Word) (s : State) : (s.setI a).I = a := rfl
@[simp] theorem setI_pc (a : Word) (s : State) : (s.setI a).pc = s.pc := rfl
@[simp] theorem setI_dt (a : Word) (s : State) : (s.setI a).dt = s.dt := rfl
@[simp] theorem setI_st (a : Word) (s : State) : (s.setI a).st = s.st := rfl
@[simp] theorem setI_stack (a : Word) (s : State) : (s.setI a).stack = s.stack := rfl
@[simp] theorem setI_sp (a : Word) (s : State) : (s.setI a).sp = s.sp := rfl
@[simp] theorem setI_fb (a : Word) (s : State) : (s.setI a).fb = s.fb := rfl
@[simp] theorem setI_kp (a : Word) (s : State) : (s.setI a).kp = s.kp := rfl
@[simp] theorem setI_fc (a : Word) (s : State) : (s.setI a).fc = s.fc := rfl
@[simp] theorem setI_mem (a : Word) (s : State) : (s.setI a).mem = s.mem := rfl
@[simp] theorem setI_rnd (a : Word) (s : State) : (s.setI a).rnd = s.rnd := rfl
@[simp] theorem setI_report (a : Word) (s : State) : (s.setI a).report = s.report := rfl
@[simp] theorem setI_host (a : Word) (s : State) : (s.setI a).host = s.host := rfl
@[simp] theorem setI_draws (a : Word) (s : State) : (s.setI a).draws = s.draws := rfl
@[simp] theorem setI_notes (a : Word) (s : State) : (s.setI a).notes = s.notes := rfl
@[simp] theorem setI_cfg (a : Word) (s : State) : (s.setI a).cfg = s.cfg := rfl

/-! `beginTick` -/
@[simp] theorem beginTick_x (k : Keypad) (v : Byte) (s : State) : (s.beginTick k v).x = s.x := rfl
@[simp] theorem beginTick_I (k : Keypad) (v : Byte) (s : State) : (s.beginTick k v).I = s.I := rfl
@[simp] theorem beginTick_pc (k : Keypad) (v : Byte) (s : State) : (s.beginTick k v).pc = s.pc := rfl
@[simp] theorem beginTick_dt (k : Keypad) (v : Byte) (s : State) : (s.beginTick k v).dt = countDown s.dt := rfl
@[simp] theorem beginTick_st (k : Keypad) (v : Byte) (s : State) : (s.beginTick k v).st = countDown s.st := rfl
@[simp] theorem beginTick_stack (k : Keypad) (v : Byte) (s : State) : (s.beginTick k v).stack = s.stack := rfl
@[simp] theorem beginTick_sp (k : Keypad) (v : Byte) (s : State) : (s.beginTick k v).sp = s.sp := rfl
@[simp] theorem beginTick_fb (k : Keypad) (v : Byte) (s : State) : (s.beginTick k v).fb = s.fb := rfl
@[simp] theorem beginTick_kp (k : Keypad) (v : Byte) (s : State) : (s.beginTick k v).kp = k := rfl
@[simp] theorem beginTick_fc (k : Keypad) (v : Byte) (s : State) : (s.beginTick k v).fc = false := rfl
@[simp] theorem beginTick_mem (k : Keypad) (v : Byte) (s : State) : (s.beginTick k v).mem = s.mem := rfl
@[simp] theorem beginTick_rnd (k : Keypad) (v : Byte) (s : State) : (s.beginTick k v).rnd = v := rfl
@[simp] theorem beginTick_report (k : Keypad) (v : Byte) (s : State) : (s.beginTick k v).report = s.report := rfl
@[simp] theorem beginTick_host (k : Keypad) (v : Byte) (s : State) : (s.beginTick k v).host = s.host := rfl
@[simp] theorem beginTick_draws (k : Keypad) (v : Byte) (s : State) : (s.beginTick k v).draws = s.draws := rfl
@[simp] theorem beginTick_notes (k : Keypad) (v : Byte) (s : State) : (s.beginTick k v).notes = s.notes := rfl
@[simp] theorem beginTick_cfg (k : Keypad) (v : Byte) (s : State) : (s.beginTick k v).cfg = s.cfg := rfl

/-! `endTick` -/
@[simp] theorem endTick_x (s : State) : (s.endTick).x = s.x := rfl
@[simp] theorem endTick_I (s : State) : (s.endTick).I = s.I := rfl
@[simp] theorem endTick_pc (s : State) : (s.endTick).pc = s.pc := rfl
@[simp] theorem endTick_dt (s : State) : (s.endTick).dt = s.dt := rfl
@[simp] theorem endTick_st (s : State) : (s.endTick).st = s.st := rfl
@[simp] theorem endTick_stack (s : State) : (s.endTick).stack = s.stack := rfl
@[simp] theorem endTick_sp (s : State) : (s.endTick).sp = s.sp := rfl
@[simp] theorem endTick_fb (s : State) : (s.endTick).fb = s.fb := rfl
@[simp] theorem endTick_kp (s : State) : (s.endTick).kp = s.kp := rfl
@[simp] theorem endTick_fc (s : State) : (s.endTick).fc = s.fc := rfl
@[simp] theorem endTick_mem (s : State) : (s.endTick).mem = s.mem := rfl
@[simp] theorem endTick_rnd (s : State) : (s.endTick).rnd = s.rnd := rfl
@[simp] theorem endTick_report (s : State) : (s.endTick).report = some ⟨s.fc, decide (0 < s.st.toNat)⟩ := rfl
@[simp] theorem endTick_host (s : State) : (s.endTick).host = s.host := rfl
@[simp] theorem endTick_draws (s : State) : (s.endTick).draws = s.draws := rfl
@[simp] theorem endTick_notes (s : State) : (s.endTick).notes = s.notes := rfl
@[simp] theorem endTick_cfg (s : State) : (s.endTick).cfg = s.cfg := rfl

end Sys2Proof.Machine
end

