-- ==== Sys2Proof/Laws/Fields.lean ====
section
/-! SUPPORT. Laws/Fields.lean: which fields the shared operations that look before they write leave alone, field by field. -/
namespace Sys2Proof.Machine

/-! `setResultFlag` -/
@[simp] theorem setResultFlag_I (x : Reg) (v w : Byte) (s : State) : (s.setResultFlag x v w).I = s.I := rfl
@[simp] theorem setResultFlag_pc (x : Reg) (v w : Byte) (s : State) : (s.setResultFlag x v w).pc = s.pc := rfl
@[simp] theorem setResultFlag_dt (x : Reg) (v w : Byte) (s : State) : (s.setResultFlag x v w).dt = s.dt := rfl
@[simp] theorem setResultFlag_st (x : Reg) (v w : Byte) (s : State) : (s.setResultFlag x v w).st = s.st := rfl
@[simp] theorem setResultFlag_stack (x : Reg) (v w : Byte) (s : State) : (s.setResultFlag x v w).stack = s.stack := rfl
@[simp] theorem setResultFlag_sp (x : Reg) (v w : Byte) (s : State) : (s.setResultFlag x v w).sp = s.sp := rfl
@[simp] theorem setResultFlag_fb (x : Reg) (v w : Byte) (s : State) : (s.setResultFlag x v w).fb = s.fb := rfl
@[simp] theorem setResultFlag_kp (x : Reg) (v w : Byte) (s : State) : (s.setResultFlag x v w).kp = s.kp := rfl
@[simp] theorem setResultFlag_fc (x : Reg) (v w : Byte) (s : State) : (s.setResultFlag x v w).fc = s.fc := rfl
@[simp] theorem setResultFlag_mem (x : Reg) (v w : Byte) (s : State) : (s.setResultFlag x v w).mem = s.mem := rfl
@[simp] theorem setResultFlag_rnd (x : Reg) (v w : Byte) (s : State) : (s.setResultFlag x v w).rnd = s.rnd := rfl
@[simp] theorem setResultFlag_report (x : Reg) (v w : Byte) (s : State) : (s.setResultFlag x v w).report = s.report := rfl
@[simp] theorem setResultFlag_host (x : Reg) (v w : Byte) (s : State) : (s.setResultFlag x v w).host = s.host := rfl
@[simp] theorem setResultFlag_draws (x : Reg) (v w : Byte) (s : State) : (s.setResultFlag x v w).draws = s.draws := rfl
@[simp] theorem setResultFlag_notes (x : Reg) (v w : Byte) (s : State) : (s.setResultFlag x v w).notes = s.notes := rfl
@[simp] theorem setResultFlag_cfg (x : Reg) (v w : Byte) (s : State) : (s.setResultFlag x v w).cfg = s.cfg := rfl

/-! `noteRead` -/
@[simp] theorem noteRead_x (a : Nat) (s : State) : (s.noteRead a).x = s.x := by unfold State.noteRead; split <;> rfl
@[simp] theorem noteRead_I (a : Nat) (s : State) : (s.noteRead a).I = s.I := by unfold State.noteRead; split <;> rfl
@[simp] theorem noteRead_pc (a : Nat) (s : State) : (s.noteRead a).pc = s.pc := by unfold State.noteRead; split <;> rfl
@[simp] theorem noteRead_dt (a : Nat) (s : State) : (s.noteRead a).dt = s.dt := by unfold State.noteRead; split <;> rfl
@[simp] theorem noteRead_st (a : Nat) (s : State) : (s.noteRead a).st = s.st := by unfold State.noteRead; split <;> rfl
@[simp] theorem noteRead_stack (a : Nat) (s : State) : (s.noteRead a).stack = s.stack := by unfold State.noteRead; split <;> rfl
@[simp] theorem noteRead_sp (a : Nat) (s : State) : (s.noteRead a).sp = s.sp := by unfold State.noteRead; split <;> rfl
@[simp] theorem noteRead_fb (a : Nat) (s : State) : (s.noteRead a).fb = s.fb := by unfold State.noteRead; split <;> rfl
@[simp] theorem noteRead_kp (a : Nat) (s : State) : (s.noteRead a).kp = s.kp := by unfold State.noteRead; split <;> rfl
@[simp] theorem noteRead_fc (a : Nat) (s : State) : (s.noteRead a).fc = s.fc := by unfold State.noteRead; split <;> rfl
@[simp] theorem noteRead_mem (a : Nat) (s : State) : (s.noteRead a).mem = s.mem := by unfold State.noteRead; split <;> rfl
@[simp] theorem noteRead_rnd (a : Nat) (s : State) : (s.noteRead a).rnd = s.rnd := by unfold State.noteRead; split <;> rfl
@[simp] theorem noteRead_report (a : Nat) (s : State) : (s.noteRead a).report = s.report := by unfold State.noteRead; split <;> rfl
@[simp] theorem noteRead_host (a : Nat) (s : State) : (s.noteRead a).host = s.host := by unfold State.noteRead; split <;> rfl
@[simp] theorem noteRead_draws (a : Nat) (s : State) : (s.noteRead a).draws = s.draws := by unfold State.noteRead; split <;> rfl
@[simp] theorem noteRead_cfg (a : Nat) (s : State) : (s.noteRead a).cfg = s.cfg := by unfold State.noteRead; split <;> rfl

/-! `noteKey` -/
@[simp] theorem noteKey_x (v : Byte) (s : State) : (s.noteKey v).x = s.x := by unfold State.noteKey; split <;> rfl
@[simp] theorem noteKey_I (v : Byte) (s : State) : (s.noteKey v).I = s.I := by unfold State.noteKey; split <;> rfl
@[simp] theorem noteKey_pc (v : Byte) (s : State) : (s.noteKey v).pc = s.pc := by unfold State.noteKey; split <;> rfl
@[simp] theorem noteKey_dt (v : Byte) (s : State) : (s.noteKey v).dt = s.dt := by unfold State.noteKey; split <;> rfl
@[simp] theorem noteKey_st (v : Byte) (s : State) : (s.noteKey v).st = s.st := by unfold State.noteKey; split <;> rfl
@[simp] theorem noteKey_stack (v : Byte) (s : State) : (s.noteKey v).stack = s.stack := by unfold State.noteKey; split <;> rfl
@[simp] theorem noteKey_sp (v : Byte) (s : State) : (s.noteKey v).sp = s.sp := by unfold State.noteKey; split <;> rfl
@[simp] theorem noteKey_fb (v : Byte) (s : State) : (s.noteKey v).fb = s.fb := by unfold State.noteKey; split <;> rfl
@[simp] theorem noteKey_kp (v : Byte) (s : State) : (s.noteKey v).kp = s.kp := by unfold State.noteKey; split <;> rfl
@[simp] theorem noteKey_fc (v : Byte) (s : State) : (s.noteKey v).fc = s.fc := by unfold State.noteKey; split <;> rfl
@[simp] theorem noteKey_mem (v : Byte) (s : State) : (s.noteKey v).mem = s.mem := by unfold State.noteKey; split <;> rfl
@[simp] theorem noteKey_rnd (v : Byte) (s : State) : (s.noteKey v).rnd = s.rnd := by unfold State.noteKey; split <;> rfl
@[simp] theorem noteKey_report (v : Byte) (s : State) : (s.noteKey v).report = s.report := by unfold State.noteKey; split <;> rfl
@[simp] theorem noteKey_host (v : Byte) (s : State) : (s.noteKey v).host = s.host := by unfold State.noteKey; split <;> rfl
@[simp] theorem noteKey_draws (v : Byte) (s : State) : (s.noteKey v).draws = s.draws := by unfold State.noteKey; split <;> rfl
@[simp] theorem noteKey_cfg (v : Byte) (s : State) : (s.noteKey v).cfg = s.cfg := by unfold State.noteKey; split <;> rfl

/-! `writeByte` -/
@[simp] theorem writeByte_x (a : Nat) (v : Byte) (s : State) : (s.writeByte a v).x = s.x := by unfold State.writeByte; split <;> rfl
@[simp] theorem writeByte_I (a : Nat) (v : Byte) (s : State) : (s.writeByte a v).I = s.I := by unfold State.writeByte; split <;> rfl
@[simp] theorem writeByte_pc (a : Nat) (v : Byte) (s : State) : (s.writeByte a v).pc = s.pc := by unfold State.writeByte; split <;> rfl
@[simp] theorem writeByte_dt (a : Nat) (v : Byte) (s : State) : (s.writeByte a v).dt = s.dt := by unfold State.writeByte; split <;> rfl
@[simp] theorem writeByte_st (a : Nat) (v : Byte) (s : State) : (s.writeByte a v).st = s.st := by unfold State.writeByte; split <;> rfl
@[simp] theorem writeByte_stack (a : Nat) (v : Byte) (s : State) : (s.writeByte a v).stack = s.stack := by unfold State.writeByte; split <;> rfl
@[simp] theorem writeByte_sp (a : Nat) (v : Byte) (s : State) : (s.writeByte a v).sp = s.sp := by unfold State.writeByte; split <;> rfl
@[simp] theorem writeByte_fb (a : Nat) (v : Byte) (s : State) : (s.writeByte a v).fb = s.fb := by unfold State.writeByte; split <;> rfl
@[simp] theorem writeByte_kp (a : Nat) (v : Byte) (s : State) : (s.writeByte a v).kp = s.kp := by unfold State.writeByte; split <;> rfl
@[simp] theorem writeByte_fc (a : Nat) (v : Byte) (s : State) : (s.writeByte a v).fc = s.fc := by unfold State.writeByte; split <;> rfl
@[simp] theorem writeByte_rnd (a : Nat) (v : Byte) (s : State) : (s.writeByte a v).rnd = s.rnd := by unfold State.writeByte; split <;> rfl
@[simp] theorem writeByte_report (a : Nat) (v : Byte) (s : State) : (s.writeByte a v).report = s.report := by unfold State.writeByte; split <;> rfl
@[simp] theorem writeByte_host (a : Nat) (v : Byte) (s : State) : (s.writeByte a v).host = s.host := by unfold State.writeByte; split <;> rfl
@[simp] theorem writeByte_draws (a : Nat) (v : Byte) (s : State) : (s.writeByte a v).draws = s.draws := by unfold State.writeByte; split <;> rfl
@[simp] theorem writeByte_cfg (a : Nat) (v : Byte) (s : State) : (s.writeByte a v).cfg = s.cfg := by unfold State.writeByte; split <;> rfl

/-! `pushReturn` -/
@[simp] theorem pushReturn_x (a : Word) (s : State) : (s.pushReturn a).x = s.x := by unfold State.pushReturn; split <;> rfl
@[simp] theorem pushReturn_I (a : Word) (s : State) : (s.pushReturn a).I = s.I := by unfold State.pushReturn; split <;> rfl
@[simp] theorem pushReturn_pc (a : Word) (s : State) : (s.pushReturn a).pc = s.pc := by unfold State.pushReturn; split <;> rfl
@[simp] theorem pushReturn_dt (a : Word) (s : State) : (s.pushReturn a).dt = s.dt := by unfold State.pushReturn; split <;> rfl
@[simp] theorem pushReturn_st (a : Word) (s : State) : (s.pushReturn a).st = s.st := by unfold State.pushReturn; split <;> rfl
@[simp] theorem pushReturn_fb (a : Word) (s : State) : (s.pushReturn a).fb = s.fb := by unfold State.pushReturn; split <;> rfl
@[simp] theorem pushReturn_kp (a : Word) (s : State) : (s.pushReturn a).kp = s.kp := by unfold State.pushReturn; split <;> rfl
@[simp] theorem pushReturn_fc (a : Word) (s : State) : (s.pushReturn a).fc = s.fc := by unfold State.pushReturn; split <;> rfl
@[simp] theorem pushReturn_mem (a : Word) (s : State) : (s.pushReturn a).mem = s.mem := by unfold State.pushReturn; split <;> rfl
@[simp] theorem pushReturn_rnd (a : Word) (s : State) : (s.pushReturn a).rnd = s.rnd := by unfold State.pushReturn; split <;> rfl
@[simp] theorem pushReturn_report (a : Word) (s : State) : (s.pushReturn a).report = s.report := by unfold State.pushReturn; split <;> rfl
@[simp] theorem pushReturn_host (a : Word) (s : State) : (s.pushReturn a).host = s.host := by unfold State.pushReturn; split <;> rfl
@[simp] theorem pushReturn_draws (a : Word) (s : State) : (s.pushReturn a).draws = s.draws := by unfold State.pushReturn; split <;> rfl
@[simp] theorem pushReturn_cfg (a : Word) (s : State) : (s.pushReturn a).cfg = s.cfg := by unfold State.pushReturn; split <;> rfl

/-! `popReturn` -/
@[simp] theorem popReturn_x (s : State) : (s.popReturn).x = s.x := by unfold State.popReturn; split <;> rfl
@[simp] theorem popReturn_I (s : State) : (s.popReturn).I = s.I := by unfold State.popReturn; split <;> rfl
@[simp] theorem popReturn_pc (s : State) : (s.popReturn).pc = s.pc := by unfold State.popReturn; split <;> rfl
@[simp] theorem popReturn_dt (s : State) : (s.popReturn).dt = s.dt := by unfold State.popReturn; split <;> rfl
@[simp] theorem popReturn_st (s : State) : (s.popReturn).st = s.st := by unfold State.popReturn; split <;> rfl
@[simp] theorem popReturn_stack (s : State) : (s.popReturn).stack = s.stack := by unfold State.popReturn; split <;> rfl
@[simp] theorem popReturn_fb (s : State) : (s.popReturn).fb = s.fb := by unfold State.popReturn; split <;> rfl
@[simp] theorem popReturn_kp (s : State) : (s.popReturn).kp = s.kp := by unfold State.popReturn; split <;> rfl
@[simp] theorem popReturn_fc (s : State) : (s.popReturn).fc = s.fc := by unfold State.popReturn; split <;> rfl
@[simp] theorem popReturn_mem (s : State) : (s.popReturn).mem = s.mem := by unfold State.popReturn; split <;> rfl
@[simp] theorem popReturn_rnd (s : State) : (s.popReturn).rnd = s.rnd := by unfold State.popReturn; split <;> rfl
@[simp] theorem popReturn_report (s : State) : (s.popReturn).report = s.report := by unfold State.popReturn; split <;> rfl
@[simp] theorem popReturn_host (s : State) : (s.popReturn).host = s.host := by unfold State.popReturn; split <;> rfl
@[simp] theorem popReturn_draws (s : State) : (s.popReturn).draws = s.draws := by unfold State.popReturn; split <;> rfl
@[simp] theorem popReturn_cfg (s : State) : (s.popReturn).cfg = s.cfg := by unfold State.popReturn; split <;> rfl

/-! `takeKey` -/
@[simp] theorem takeKey_I (x : Reg) (s : State) : (s.takeKey x).I = s.I := by unfold State.takeKey; split <;> rfl
@[simp] theorem takeKey_pc (x : Reg) (s : State) : (s.takeKey x).pc = s.pc := by unfold State.takeKey; split <;> rfl
@[simp] theorem takeKey_dt (x : Reg) (s : State) : (s.takeKey x).dt = s.dt := by unfold State.takeKey; split <;> rfl
@[simp] theorem takeKey_st (x : Reg) (s : State) : (s.takeKey x).st = s.st := by unfold State.takeKey; split <;> rfl
@[simp] theorem takeKey_stack (x : Reg) (s : State) : (s.takeKey x).stack = s.stack := by unfold State.takeKey; split <;> rfl
@[simp] theorem takeKey_sp (x : Reg) (s : State) : (s.takeKey x).sp = s.sp := by unfold State.takeKey; split <;> rfl
@[simp] theorem takeKey_fb (x : Reg) (s : State) : (s.takeKey x).fb = s.fb := by unfold State.takeKey; split <;> rfl
@[simp] theorem takeKey_kp (x : Reg) (s : State) : (s.takeKey x).kp = s.kp := by unfold State.takeKey; split <;> rfl
@[simp] theorem takeKey_fc (x : Reg) (s : State) : (s.takeKey x).fc = s.fc := by unfold State.takeKey; split <;> rfl
@[simp] theorem takeKey_mem (x : Reg) (s : State) : (s.takeKey x).mem = s.mem := by unfold State.takeKey; split <;> rfl
@[simp] theorem takeKey_rnd (x : Reg) (s : State) : (s.takeKey x).rnd = s.rnd := by unfold State.takeKey; split <;> rfl
@[simp] theorem takeKey_report (x : Reg) (s : State) : (s.takeKey x).report = s.report := by unfold State.takeKey; split <;> rfl
@[simp] theorem takeKey_host (x : Reg) (s : State) : (s.takeKey x).host = s.host := by unfold State.takeKey; split <;> rfl
@[simp] theorem takeKey_draws (x : Reg) (s : State) : (s.takeKey x).draws = s.draws := by unfold State.takeKey; split <;> rfl
@[simp] theorem takeKey_notes (x : Reg) (s : State) : (s.takeKey x).notes = s.notes := by unfold State.takeKey; split <;> rfl
@[simp] theorem takeKey_cfg (x : Reg) (s : State) : (s.takeKey x).cfg = s.cfg := by unfold State.takeKey; split <;> rfl

/-! `noteReads` -/
@[simp] theorem noteReads_x (a n : Nat) (s : State) : (s.noteReads a n).x = s.x := by
  induction n generalizing a s with
  | zero => rfl
  | succ n ih => simp [State.noteReads, ih]
@[simp] theorem noteReads_I (a n : Nat) (s : State) : (s.noteReads a n).I = s.I := by
  induction n generalizing a s with
  | zero => rfl
  | succ n ih => simp [State.noteReads, ih]
@[simp] theorem noteReads_pc (a n : Nat) (s : State) : (s.noteReads a n).pc = s.pc := by
  induction n generalizing a s with
  | zero => rfl
  | succ n ih => simp [State.noteReads, ih]
@[simp] theorem noteReads_dt (a n : Nat) (s : State) : (s.noteReads a n).dt = s.dt := by
  induction n generalizing a s with
  | zero => rfl
  | succ n ih => simp [State.noteReads, ih]
@[simp] theorem noteReads_st (a n : Nat) (s : State) : (s.noteReads a n).st = s.st := by
  induction n generalizing a s with
  | zero => rfl
  | succ n ih => simp [State.noteReads, ih]
@[simp] theorem noteReads_stack (a n : Nat) (s : State) : (s.noteReads a n).stack = s.stack := by
  induction n generalizing a s with
  | zero => rfl
  | succ n ih => simp [State.noteReads, ih]
@[simp] theorem noteReads_sp (a n : Nat) (s : State) : (s.noteReads a n).sp = s.sp := by
  induction n generalizing a s with
  | zero => rfl
  | succ n ih => simp [State.noteReads, ih]
@[simp] theorem noteReads_fb (a n : Nat) (s : State) : (s.noteReads a n).fb = s.fb := by
  induction n generalizing a s with
  | zero => rfl
  | succ n ih => simp [State.noteReads, ih]
@[simp] theorem noteReads_kp (a n : Nat) (s : State) : (s.noteReads a n).kp = s.kp := by
  induction n generalizing a s with
  | zero => rfl
  | succ n ih => simp [State.noteReads, ih]
@[simp] theorem noteReads_fc (a n : Nat) (s : State) : (s.noteReads a n).fc = s.fc := by
  induction n generalizing a s with
  | zero => rfl
  | succ n ih => simp [State.noteReads, ih]
@[simp] theorem noteReads_mem (a n : Nat) (s : State) : (s.noteReads a n).mem = s.mem := by
  induction n generalizing a s with
  | zero => rfl
  | succ n ih => simp [State.noteReads, ih]
@[simp] theorem noteReads_rnd (a n : Nat) (s : State) : (s.noteReads a n).rnd = s.rnd := by
  induction n generalizing a s with
  | zero => rfl
  | succ n ih => simp [State.noteReads, ih]
@[simp] theorem noteReads_report (a n : Nat) (s : State) : (s.noteReads a n).report = s.report := by
  induction n generalizing a s with
  | zero => rfl
  | succ n ih => simp [State.noteReads, ih]
@[simp] theorem noteReads_host (a n : Nat) (s : State) : (s.noteReads a n).host = s.host := by
  induction n generalizing a s with
  | zero => rfl
  | succ n ih => simp [State.noteReads, ih]
@[simp] theorem noteReads_draws (a n : Nat) (s : State) : (s.noteReads a n).draws = s.draws := by
  induction n generalizing a s with
  | zero => rfl
  | succ n ih => simp [State.noteReads, ih]
@[simp] theorem noteReads_cfg (a n : Nat) (s : State) : (s.noteReads a n).cfg = s.cfg := by
  induction n generalizing a s with
  | zero => rfl
  | succ n ih => simp [State.noteReads, ih]

/-! `writeBytes` -/
@[simp] theorem writeBytes_x (a : Nat) (vs : List Byte) (s : State) : (s.writeBytes a vs).x = s.x := by
  induction vs generalizing a s with
  | nil => rfl
  | cons v vs ih => simp [State.writeBytes, ih]
@[simp] theorem writeBytes_I (a : Nat) (vs : List Byte) (s : State) : (s.writeBytes a vs).I = s.I := by
  induction vs generalizing a s with
  | nil => rfl
  | cons v vs ih => simp [State.writeBytes, ih]
@[simp] theorem writeBytes_pc (a : Nat) (vs : List Byte) (s : State) : (s.writeBytes a vs).pc = s.pc := by
  induction vs generalizing a s with
  | nil => rfl
  | cons v vs ih => simp [State.writeBytes, ih]
@[simp] theorem writeBytes_dt (a : Nat) (vs : List Byte) (s : State) : (s.writeBytes a vs).dt = s.dt := by
  induction vs generalizing a s with
  | nil => rfl
  | cons v vs ih => simp [State.writeBytes, ih]
@[simp] theorem writeBytes_st (a : Nat) (vs : List Byte) (s : State) : (s.writeBytes a vs).st = s.st := by
  induction vs generalizing a s with
  | nil => rfl
  | cons v vs ih => simp [State.writeBytes, ih]
@[simp] theorem writeBytes_stack (a : Nat) (vs : List Byte) (s : State) : (s.writeBytes a vs).stack = s.stack := by
  induction vs generalizing a s with
  | nil => rfl
  | cons v vs ih => simp [State.writeBytes, ih]
@[simp] theorem writeBytes_sp (a : Nat) (vs : List Byte) (s : State) : (s.writeBytes a vs).sp = s.sp := by
  induction vs generalizing a s with
  | nil => rfl
  | cons v vs ih => simp [State.writeBytes, ih]
@[simp] theorem writeBytes_fb (a : Nat) (vs : List Byte) (s : State) : (s.writeBytes a vs).fb = s.fb := by
  induction vs generalizing a s with
  | nil => rfl
  | cons v vs ih => simp [State.writeBytes, ih]
@[simp] theorem writeBytes_kp (a : Nat) (vs : List Byte) (s : State) : (s.writeBytes a vs).kp = s.kp := by
  induction vs generalizing a s with
  | nil => rfl
  | cons v vs ih => simp [State.writeBytes, ih]
@[simp] theorem writeBytes_fc (a : Nat) (vs : List Byte) (s : State) : (s.writeBytes a vs).fc = s.fc := by
  induction vs generalizing a s with
  | nil => rfl
  | cons v vs ih => simp [State.writeBytes, ih]
@[simp] theorem writeBytes_rnd (a : Nat) (vs : List Byte) (s : State) : (s.writeBytes a vs).rnd = s.rnd := by
  induction vs generalizing a s with
  | nil => rfl
  | cons v vs ih => simp [State.writeBytes, ih]
@[simp] theorem writeBytes_report (a : Nat) (vs : List Byte) (s : State) : (s.writeBytes a vs).report = s.report := by
  induction vs generalizing a s with
  | nil => rfl
  | cons v vs ih => simp [State.writeBytes, ih]
@[simp] theorem writeBytes_host (a : Nat) (vs : List Byte) (s : State) : (s.writeBytes a vs).host = s.host := by
  induction vs generalizing a s with
  | nil => rfl
  | cons v vs ih => simp [State.writeBytes, ih]
@[simp] theorem writeBytes_draws (a : Nat) (vs : List Byte) (s : State) : (s.writeBytes a vs).draws = s.draws := by
  induction vs generalizing a s with
  | nil => rfl
  | cons v vs ih => simp [State.writeBytes, ih]
@[simp] theorem writeBytes_cfg (a : Nat) (vs : List Byte) (s : State) : (s.writeBytes a vs).cfg = s.cfg := by
  induction vs generalizing a s with
  | nil => rfl
  | cons v vs ih => simp [State.writeBytes, ih]

/-! `loadBlock` -/
@[simp] theorem loadBlock_I (a : Nat) (rs : List Reg) (s : State) : (s.loadBlock a rs).I = s.I := by
  induction rs generalizing s with
  | nil => rfl
  | cons r rs ih => simp [State.loadBlock, ih]
@[simp] theorem loadBlock_pc (a : Nat) (rs : List Reg) (s : State) : (s.loadBlock a rs).pc = s.pc := by
  induction rs generalizing s with
  | nil => rfl
  | cons r rs ih => simp [State.loadBlock, ih]
@[simp] theorem loadBlock_dt (a : Nat) (rs : List Reg) (s : State) : (s.loadBlock a rs).dt = s.dt := by
  induction rs generalizing s with
  | nil => rfl
  | cons r rs ih => simp [State.loadBlock, ih]
@[simp] theorem loadBlock_st (a : Nat) (rs : List Reg) (s : State) : (s.loadBlock a rs).st = s.st := by
  induction rs generalizing s with
  | nil => rfl
  | cons r rs ih => simp [State.loadBlock, ih]
@[simp] theorem loadBlock_stack (a : Nat) (rs : List Reg) (s : State) : (s.loadBlock a rs).stack = s.stack := by
  induction rs generalizing s with
  | nil => rfl
  | cons r rs ih => simp [State.loadBlock, ih]
@[simp] theorem loadBlock_sp (a : Nat) (rs : List Reg) (s : State) : (s.loadBlock a rs).sp = s.sp := by
  induction rs generalizing s with
  | nil => rfl
  | cons r rs ih => simp [State.loadBlock, ih]
@[simp] theorem loadBlock_fb (a : Nat) (rs : List Reg) (s : State) : (s.loadBlock a rs).fb = s.fb := by
  induction rs generalizing s with
  | nil => rfl
  | cons r rs ih => simp [State.loadBlock, ih]
@[simp] theorem loadBlock_kp (a : Nat) (rs : List Reg) (s : State) : (s.loadBlock a rs).kp = s.kp := by
  induction rs generalizing s with
  | nil => rfl
  | cons r rs ih => simp [State.loadBlock, ih]
@[simp] theorem loadBlock_fc (a : Nat) (rs : List Reg) (s : State) : (s.loadBlock a rs).fc = s.fc := by
  induction rs generalizing s with
  | nil => rfl
  | cons r rs ih => simp [State.loadBlock, ih]
@[simp] theorem loadBlock_mem (a : Nat) (rs : List Reg) (s : State) : (s.loadBlock a rs).mem = s.mem := by
  induction rs generalizing s with
  | nil => rfl
  | cons r rs ih => simp [State.loadBlock, ih]
@[simp] theorem loadBlock_rnd (a : Nat) (rs : List Reg) (s : State) : (s.loadBlock a rs).rnd = s.rnd := by
  induction rs generalizing s with
  | nil => rfl
  | cons r rs ih => simp [State.loadBlock, ih]
@[simp] theorem loadBlock_report (a : Nat) (rs : List Reg) (s : State) : (s.loadBlock a rs).report = s.report := by
  induction rs generalizing s with
  | nil => rfl
  | cons r rs ih => simp [State.loadBlock, ih]
@[simp] theorem loadBlock_host (a : Nat) (rs : List Reg) (s : State) : (s.loadBlock a rs).host = s.host := by
  induction rs generalizing s with
  | nil => rfl
  | cons r rs ih => simp [State.loadBlock, ih]
@[simp] theorem loadBlock_draws (a : Nat) (rs : List Reg) (s : State) : (s.loadBlock a rs).draws = s.draws := by
  induction rs generalizing s with
  | nil => rfl
  | cons r rs ih => simp [State.loadBlock, ih]
@[simp] theorem loadBlock_cfg (a : Nat) (rs : List Reg) (s : State) : (s.loadBlock a rs).cfg = s.cfg := by
  induction rs generalizing s with
  | nil => rfl
  | cons r rs ih => simp [State.loadBlock, ih]

end Sys2Proof.Machine
end

