-- ==== Sys2Proof/Laws/Memory.lean ====
section
/-! SUPPORT. Laws/Memory.lean: what a read gives after a write, that every memory operation keeps the canonical form, and that
canonical memories with equal contents are equal lists. -/
namespace Sys2Proof.Machine

variable {c : Config}

/-- The first cell of an address, as core Lean's lookup finds it. -/
theorem lookupCell_eq_lookup (m : List Host.Cell) (a : Nat) : lookupCell m a = m.lookup a := by
  induction m with
  | nil => rfl
  | cons p t ih =>
    rw [lookupCell, List.lookup_cons, ih]
    by_cases h : a = p.1
    · simp [h]
    · simp [h, beq_eq_false_iff_ne.mpr h]

/-- What memory holds at power-on in the font table (R33). -/
theorem powerOnByte_font (k : Fin 80) : powerOnByte c (0x050 + k.val) = c.font[k] := by
  simp [powerOnByte, fontBase]

/-- What memory holds at power-on outside it (R9, R38). -/
theorem powerOnByte_outside {a : Nat} (h : a < 0x050 ∨ 0x09F < a) : powerOnByte c a = (c.memInit.lookup a).getD 0 := by
  rw [powerOnByte, dif_neg (by simp only [fontBase]; omega), lookupCell_eq_lookup]

theorem wfFrom_mono {lo lo' : Nat} {m : Memory} (h : lo' ≤ lo) (hm : Memory.wfFrom c lo m = true) :
    Memory.wfFrom c lo' m = true := by
  cases m with
  | nil => rfl
  | cons p t => simp [Memory.wfFrom] at hm ⊢; exact ⟨⟨⟨by omega, hm.1.1.2⟩, hm.1.2⟩, hm.2⟩

/-- Below the lowest address a canonical list may hold, it lists nothing. -/
theorem lookupCell_below {lo a : Nat} {m : Memory} (hm : Memory.wfFrom c lo m = true) (h : a < lo) : lookupCell m a = none := by
  induction m generalizing lo with
  | nil => rfl
  | cons p t ih =>
    simp [Memory.wfFrom] at hm
    rw [lookupCell, if_neg (by omega)]
    exact ih hm.2 (by omega)

theorem read_write_same {lo a : Nat} (v : Byte) {m : Memory} (hm : Memory.wfFrom c lo m = true) :
    Memory.read c (Memory.write c a v m) a = v := by
  induction m generalizing lo with
  | nil => by_cases h : v = powerOnByte c a <;> simp [Memory.write, Memory.read, lookupCell, h]
  | cons p t ih =>
    obtain ⟨b, w⟩ := p
    simp [Memory.wfFrom] at hm
    unfold Memory.write
    split
    · split
      · rename_i h1 h2
        simp [Memory.read, lookupCell, Nat.ne_of_lt h1, lookupCell_below hm.2 (by omega : a < b + 1), h2]
      · simp [Memory.read, lookupCell]
    · split
      · split
        · rename_i h1 h2 h3
          subst h2
          simp [Memory.read, lookupCell_below hm.2 (by omega : a < a + 1), h3]
        · simp [Memory.read, lookupCell]
      · rename_i h1 h2
        have := ih hm.2
        simp only [Memory.read, lookupCell, if_neg h2] at this ⊢
        exact this

/-- No form is asked of the memory here: a write leaves every other address alone. -/
theorem read_write_other {a b : Nat} (v : Byte) (m : Memory) (h : b ≠ a) :
    Memory.read c (Memory.write c a v m) b = Memory.read c m b := by
  suffices lookupCell (Memory.write c a v m) b = lookupCell m b by simp [Memory.read, this]
  induction m with
  | nil => by_cases h' : v = powerOnByte c a <;> simp [Memory.write, lookupCell, h, h']
  | cons p t ih =>
    obtain ⟨d, w⟩ := p
    unfold Memory.write
    split
    · split <;> simp [lookupCell, h]
    · split
      · rename_i h1 h2
        subst h2
        split <;> simp [lookupCell, h]
      · simp only [lookupCell, ih]

theorem wfFrom_write {lo a : Nat} (v : Byte) {m : Memory} (hm : Memory.wfFrom c lo m = true) (hl : lo ≤ a) (ha : a < memSize) :
    Memory.wfFrom c lo (Memory.write c a v m) = true := by
  induction m generalizing lo with
  | nil => by_cases h : v = powerOnByte c a <;> simp [Memory.write, Memory.wfFrom, h, hl, ha]
  | cons p t ih =>
    obtain ⟨b, w⟩ := p
    have hm' := hm
    simp [Memory.wfFrom] at hm
    unfold Memory.write
    split
    · split
      · exact hm'
      · rename_i h1 h2
        simp only [Memory.wfFrom, Bool.and_eq_true, decide_eq_true_eq]
        exact ⟨⟨⟨hl, ha⟩, h2⟩, ⟨⟨⟨by omega, hm.1.1.2⟩, hm.1.2⟩, hm.2⟩⟩
    · split
      · split
        · exact wfFrom_mono (by omega) hm.2
        · rename_i h1 h2 h3
          subst h2
          simp only [Memory.wfFrom, Bool.and_eq_true, decide_eq_true_eq]
          exact ⟨⟨⟨hl, ha⟩, h3⟩, hm.2⟩
      · simp only [Memory.wfFrom, Bool.and_eq_true, decide_eq_true_eq]
        exact ⟨⟨⟨by omega, hm.1.1.2⟩, hm.1.2⟩, ih hm.2 (by omega)⟩

/-- A write inside memory keeps the canonical form. -/
theorem wf_write {a : Nat} (v : Byte) {m : Memory} (hm : Memory.wf c m) (ha : a < memSize) : Memory.wf c (Memory.write c a v m) :=
  wfFrom_write v hm (Nat.zero_le a) ha

/-- Everything a write does to the contents. -/
theorem read_write {a b : Nat} (v : Byte) {m : Memory} (hm : Memory.wf c m) :
    Memory.read c (Memory.write c a v m) b = if b = a then v else Memory.read c m b := by
  split
  · rename_i h
    subst h
    exact read_write_same v hm
  · exact read_write_other v m ‹_›

theorem wf_writeList {a : Nat} (vs : List Byte) {m : Memory} (hm : Memory.wf c m) (ha : a + vs.length ≤ memSize) :
    Memory.wf c (Memory.writeList c a vs m) := by
  induction vs generalizing a m with
  | nil => exact hm
  | cons v vs ih =>
    simp only [List.length_cons] at ha
    exact ih (wf_write v hm (by omega)) (by omega)

/-- The contents after a list of bytes has been put at consecutive addresses. -/
theorem read_writeList {a b : Nat} (vs : List Byte) {m : Memory} (hm : Memory.wf c m) (ha : a + vs.length ≤ memSize) :
    Memory.read c (Memory.writeList c a vs m) b = if a ≤ b then vs[b - a]?.getD (Memory.read c m b) else Memory.read c m b := by
  induction vs generalizing a m with
  | nil => simp [Memory.writeList]
  | cons v vs ih =>
    simp only [List.length_cons] at ha
    rw [Memory.writeList, ih (wf_write v hm (by omega)) (by omega), read_write v hm]
    by_cases h1 : a + 1 ≤ b
    · obtain ⟨k, rfl⟩ : ∃ k, b = a + (k + 1) := ⟨b - a - 1, by omega⟩
      have e : a + (k + 1) - (a + 1) = k := by omega
      have e' : a + (k + 1) - a = k + 1 := by omega
      simp [h1, e, e', show a ≤ a + (k + 1) by omega]
    · by_cases h2 : b = a
      · subst h2; simp
      · simp [h1, h2, show ¬ a ≤ b by omega]

/-- Canonical memories that read the same everywhere are the same list. -/
theorem wfFrom_ext {lo : Nat} {m m' : Memory} (hm : Memory.wfFrom c lo m = true) (hm' : Memory.wfFrom c lo m' = true)
    (h : ∀ a, Memory.read c m a = Memory.read c m' a) : m = m' := by
  have listed : ∀ {lo a v} {t : Memory}, Memory.wfFrom c lo ((a, v) :: t) = true → Memory.read c ((a, v) :: t) a ≠ powerOnByte c a := by
    intro lo a v t hw
    simp [Memory.wfFrom] at hw
    simpa [Memory.read, lookupCell] using hw.1.2
  have unlisted : ∀ {lo a} {t : Memory}, Memory.wfFrom c lo t = true → a < lo → Memory.read c t a = powerOnByte c a := by
    intro lo a t hw ha
    simp [Memory.read, lookupCell_below hw ha]
  induction m generalizing lo m' with
  | nil =>
    cases m' with
    | nil => rfl
    | cons p t => exact absurd (h p.1).symm (by simpa [Memory.read, lookupCell] using listed hm')
  | cons p t ih =>
    obtain ⟨a, v⟩ := p
    cases m' with
    | nil => exact absurd (h a) (by simpa [Memory.read, lookupCell] using listed hm)
    | cons q t' =>
      obtain ⟨b, w⟩ := q
      have low := hm
      have low' := hm'
      simp [Memory.wfFrom] at low low'
      have hab : a = b := by
        rcases Nat.lt_trichotomy a b with hlt | heq | hgt
        · have hb : Memory.wfFrom c b ((b, w) :: t') = true := by
            simp only [Memory.wfFrom, Bool.and_eq_true, decide_eq_true_eq]; exact ⟨⟨⟨le_refl b, low'.1.1.2⟩, low'.1.2⟩, low'.2⟩
          exact absurd ((h a).trans (unlisted hb hlt)) (listed hm)
        · exact heq
        · have ha : Memory.wfFrom c a ((a, v) :: t) = true := by
            simp only [Memory.wfFrom, Bool.and_eq_true, decide_eq_true_eq]; exact ⟨⟨⟨le_refl a, low.1.1.2⟩, low.1.2⟩, low.2⟩
          exact absurd ((h b).symm.trans (unlisted ha hgt)) (listed hm')
      subst hab
      have hv : v = w := by simpa [Memory.read, lookupCell] using h a
      subst hv
      have ht : t = t' := by
        refine ih low.2 low'.2 fun d => ?_
        by_cases hd : d = a
        · subst hd
          rw [unlisted low.2 (by omega), unlisted low'.2 (by omega)]
        · simpa [Memory.read, lookupCell, hd] using h d
      rw [ht]

end Sys2Proof.Machine
end

