-- ==== Sys2Proof/Laws/Ops.lean ====
section
/-! SUPPORT. Laws/Ops.lean: for each shared operation, once, everything it can do. -/
namespace Sys2Proof.Machine

/-! Notes. -/

@[simp] theorem has_mark (n : Notes) (c d : Condition) : (n.mark c).has d = (n.has d || decide (d = c)) := by
  cases c <;> cases d <;> simp [Notes.mark, Notes.has]

theorem notes_ext {n m : Notes} (h : ∀ c, n.has c = m.has c) : n = m := by
  obtain ⟨a1, a2, a3, a4, a5, a6, a7⟩ := n
  obtain ⟨b1, b2, b3, b4, b5, b6, b7⟩ := m
  have h1 := h .oobRead
  have h2 := h .oobWrite
  have h3 := h .unrecognisedWord
  have h4 := h .stackOverflow
  have h5 := h .stackUnderflow
  have h6 := h .keyIndexRange
  have h7 := h .loadTruncated
  simp only [Notes.has] at h1 h2 h3 h4 h5 h6 h7
  subst h1 h2 h3 h4 h5 h6 h7
  rfl

/-- Noting a condition twice is noting it once. -/
@[simp] theorem mark_mark (n : Notes) (c : Condition) : (n.mark c).mark c = n.mark c := by
  cases c <;> rfl

/-! Completing an instruction. -/

@[simp] theorem complete_eq (d : Directive) (s : State) : s.complete d = .next (s.advance d) := rfl

@[simp] theorem finishTick_next (s : State) : finishTick (.next s) = .next s.endTick := rfl

/-! Registers. -/

theorem reg_setReg (r q : Reg) (v : Byte) (s : State) : (s.setReg r v).reg q = if q = r then v else s.reg q := by
  by_cases h : q = r
  · subst h; simp [State.reg]
  · have : r.val ≠ q.val := fun e => h (Fin.ext e.symm)
    simp [State.reg, h, this]

/-- The result stands in `x[X]` and the flag in `x[15]`; where they are one register the flag stands (R161). -/
theorem reg_setResultFlag (x q : Reg) (v w : Byte) (s : State) :
    (s.setResultFlag x v w).reg q = if q = flagReg then w else if q = x then v else s.reg q := by
  rw [State.setResultFlag, reg_setReg, reg_setReg]

/-- Registers are read from the field `x` alone. -/
theorem reg_congr {s t : State} (h : t.x = s.x) (r : Reg) : t.reg r = s.reg r := by simp [State.reg, h]

/-! Bytes of memory. -/

/-- A byte is read from the fields `mem` and `cfg` alone. -/
theorem readByte_congr {s t : State} (hm : t.mem = s.mem) (hc : t.cfg = s.cfg) (a : Nat) : t.readByte a = s.readByte a := by
  simp [State.readByte, hm, hc]

theorem readByte_outside (s : State) {a : Nat} (h : 0xFFF < a) : s.readByte a = 0 := by
  simp [State.readByte, show ¬ a ≤ 0xFFF by omega]

theorem noteRead_notes (a : Nat) (s : State) : (s.noteRead a).notes = if 0xFFF < a then s.notes.mark .oobRead else s.notes := by
  unfold State.noteRead
  by_cases h : a ≤ 0xFFF
  · simp [h, show ¬ 0xFFF < a by omega]
  · simp [h, show 0xFFF < a by omega]

theorem writeByte_notes (a : Nat) (v : Byte) (s : State) :
    (s.writeByte a v).notes = if 0xFFF < a then s.notes.mark .oobWrite else s.notes := by
  unfold State.writeByte
  by_cases h : a ≤ 0xFFF
  · simp [h, show ¬ 0xFFF < a by omega]
  · simp [h, show 0xFFF < a by omega]

theorem writeByte_mem (a : Nat) (v : Byte) (s : State) :
    (s.writeByte a v).mem = if a ≤ 0xFFF then Memory.write s.cfg a v s.mem else s.mem := by
  unfold State.writeByte
  split <;> rfl

theorem writeByte_wf (a : Nat) (v : Byte) {s : State} (hm : Memory.wf s.cfg s.mem) :
    Memory.wf s.cfg (s.writeByte a v).mem := by
  rw [writeByte_mem]
  split
  · exact wf_write v hm (by unfold memSize; omega)
  · exact hm

/-- A write outside memory changes no byte (R56). -/
theorem readByte_writeByte {a b : Nat} (v : Byte) {s : State} (hm : Memory.wf s.cfg s.mem) :
    (s.writeByte a v).readByte b = if b = a ∧ a ≤ 0xFFF then v else s.readByte b := by
  unfold State.readByte
  rw [writeByte_cfg, writeByte_mem]
  by_cases ha : a ≤ 0xFFF
  · by_cases hb : b ≤ 0xFFF
    · simp [ha, hb, read_write v hm]
    · simp [hb, show ¬ (b = a ∧ a ≤ 0xFFF) by omega]
  · simp [ha]

theorem writeBytes_wf (a : Nat) (vs : List Byte) {s : State} (hm : Memory.wf s.cfg s.mem) :
    Memory.wf s.cfg (s.writeBytes a vs).mem := by
  induction vs generalizing a s with
  | nil => exact hm
  | cons v vs ih =>
    have h := ih (a + 1) (s := s.writeByte a v) (by rw [writeByte_cfg]; exact writeByte_wf a v hm)
    rwa [writeByte_cfg] at h

/-- Everything a store of consecutive bytes does to memory. -/
theorem readByte_writeBytes {a b : Nat} (vs : List Byte) {s : State} (hm : Memory.wf s.cfg s.mem) :
    (s.writeBytes a vs).readByte b = if a ≤ b ∧ b ≤ 0xFFF then vs[b - a]?.getD (s.readByte b) else s.readByte b := by
  induction vs generalizing a s with
  | nil => simp [State.writeBytes]
  | cons v vs ih =>
    rw [State.writeBytes, ih (by rw [writeByte_cfg]; exact writeByte_wf a v hm), readByte_writeByte v hm]
    by_cases h1 : a + 1 ≤ b
    · obtain ⟨k, rfl⟩ : ∃ k, b = a + (k + 1) := ⟨b - a - 1, by omega⟩
      have e : a + (k + 1) - (a + 1) = k := by omega
      have e' : a + (k + 1) - a = k + 1 := by omega
      simp [h1, e, e', show a ≤ a + (k + 1) by omega]
    · by_cases h2 : b = a
      · subst h2; simp
      · simp [h1, h2, show ¬ a ≤ b by omega]

/-- A store notes `OOB_WRITE` exactly when one of its bytes lies outside memory. -/
theorem writeBytes_notes (a : Nat) (vs : List Byte) (s : State) :
    (s.writeBytes a vs).notes = if vs ≠ [] ∧ 0x1000 < a + vs.length then s.notes.mark .oobWrite else s.notes := by
  induction vs generalizing a s with
  | nil => simp [State.writeBytes]
  | cons v vs ih =>
    rw [State.writeBytes, ih, writeByte_notes]
    by_cases h0 : vs = []
    · subst h0
      by_cases h : 0xFFF < a
      · simp [h, show 0x1000 < a + 1 by omega]
      · simp [h, show ¬ 0x1000 < a + 1 by omega]
    · have hp : 0 < vs.length := List.length_pos_iff.mpr h0
      by_cases h1 : 0x1000 < a + (vs.length + 1)
      · by_cases h : 0xFFF < a <;> simp [h0, h, h1, show 0x1000 < a + 1 + vs.length by omega]
      · simp [h0, h1, show ¬ 0x1000 < a + 1 + vs.length by omega, show ¬ 0xFFF < a by omega]

/-- A run of reads notes `OOB_READ` exactly when one of its bytes lies outside memory. -/
theorem noteReads_notes (a n : Nat) (s : State) :
    (s.noteReads a n).notes = if 0 < n ∧ 0x1000 < a + n then s.notes.mark .oobRead else s.notes := by
  induction n generalizing a s with
  | zero => simp [State.noteReads]
  | succ n ih =>
    rw [State.noteReads, ih, noteRead_notes]
    by_cases h0 : n = 0
    · subst h0
      by_cases h : 0xFFF < a
      · simp [h, show 0x1000 < a + 1 by omega]
      · simp [h, show ¬ 0x1000 < a + 1 by omega]
    · have hp : 0 < n := by omega
      by_cases h1 : 0x1000 < a + (n + 1)
      · by_cases h : 0xFFF < a <;> simp [hp, h, h1, show 0x1000 < a + 1 + n by omega]
      · simp [h1, show ¬ 0x1000 < a + 1 + n by omega, show ¬ 0xFFF < a by omega]

/-! The register block (R196, R197). -/

theorem mem_blockRegs (x r : Reg) : r ∈ blockRegs x ↔ r ≤ x := by
  revert x r; decide

/-- The block in memory order: the byte at offset `k` is `x[k]`. -/
theorem getElem?_blockRegs (x : Reg) (k : Nat) :
    (blockRegs x)[k]? = if k ≤ x.val then some (Fin.ofNat 16 k) else none := by
  unfold blockRegs
  by_cases h : k ≤ x.val
  · simp [h, show k < x.val + 1 by omega]
  · simp [h, show ¬ k < x.val + 1 by omega]

/-- Everything a block load does to the registers. -/
theorem reg_loadBlock (a : Nat) (rs : List Reg) (s : State) (q : Reg) :
    (s.loadBlock a rs).reg q = if q ∈ rs then s.readByte (a + q.val) else s.reg q := by
  induction rs generalizing s with
  | nil => simp [State.loadBlock]
  | cons r rs ih =>
    have hread : ((s.noteRead (a + r.val)).setReg r (s.readByte (a + r.val))).readByte (a + q.val) = s.readByte (a + q.val) :=
      readByte_congr (by simp) (by simp) _
    rw [State.loadBlock, ih, hread, reg_setReg, reg_congr (noteRead_x _ s)]
    by_cases h : q = r
    · subst h; simp
    · simp [h]

/-- A block load notes `OOB_READ` exactly when one of its bytes lies outside memory. -/
theorem loadBlock_notes (a : Nat) (rs : List Reg) (s : State) :
    (s.loadBlock a rs).notes = if ∃ r ∈ rs, 0xFFF < a + r.val then s.notes.mark .oobRead else s.notes := by
  induction rs generalizing s with
  | nil => simp [State.loadBlock]
  | cons r rs ih =>
    rw [State.loadBlock, ih, setReg_notes, noteRead_notes]
    by_cases h : 0xFFF < a + r.val
    · simp only [h, if_true, mark_mark, ite_self, List.mem_cons, exists_eq_or_imp, true_or]
    · simp only [h, if_false, List.mem_cons, exists_eq_or_imp, false_or]

/-! The call stack (R131, R133). -/

theorem pushReturn_room {ra : Word} {s : State} (h : s.sp.val < 16) :
    s.pushReturn ra = { s with stack := s.stack.set s.sp.val ra h, sp := ⟨s.sp.val + 1, by omega⟩ } := by
  simp [State.pushReturn, h]

theorem pushReturn_full {ra : Word} {s : State} (h : s.sp = 16) : s.pushReturn ra = s.note .stackOverflow := by
  simp [State.pushReturn, h]

theorem popReturn_held {s : State} (h : s.sp.val ≠ 0) : s.popReturn = { s with sp := ⟨s.sp.val - 1, by omega⟩ } := by
  simp [State.popReturn, h]

theorem popReturn_empty {s : State} (h : s.sp = 0) : s.popReturn = s.note .stackUnderflow := by
  simp [State.popReturn, h]

/-! Keys (R138, R208). -/

theorem keyNumber_val (v : Byte) : (keyNumber v).val = v.toNat % 16 := by
  simp [keyNumber]

theorem mem_keys : ∀ j : Key, j ∈ keys := by decide

/-- `leastKey` gives a pressed key below which none is pressed. -/
theorem leastKey_some {kp : Keypad} {k : Key} (h : leastKey kp = some k) : kp[k] = true ∧ ∀ j : Key, j < k → kp[j] = false := by
  unfold leastKey at h
  rw [List.find?_eq_some_iff_append] at h
  obtain ⟨hk, as, bs, hl, hno⟩ := h
  refine ⟨by simpa using hk, fun j hj => ?_⟩
  have hmem : j ∈ as := by
    have hsorted : keys.Pairwise (· < ·) := by decide
    rw [hl, List.pairwise_append] at hsorted
    have hjm := mem_keys j
    rw [hl, List.mem_append, List.mem_cons] at hjm
    rcases hjm with hm | hm | hm
    · exact hm
    · exact absurd hm (Fin.ne_of_lt hj)
    · exact absurd hj (Fin.lt_asymm (List.rel_of_pairwise_cons hsorted.2.1 hm))
  simpa using hno j hmem

theorem leastKey_none {kp : Keypad} : leastKey kp = none ↔ ∀ j : Key, kp[j] = false := by
  unfold leastKey
  rw [List.find?_eq_none]
  constructor
  · intro h j
    have := h j (mem_keys j)
    simpa using this
  · intro h j _
    simp [h j]

/-! Directives (R119, R120). -/

/-- Where a skip leaves the program counter. -/
@[simp] theorem skipIf_apply (b : Bool) (pc : Word) : (skipIf b).apply pc = if b = true then pc + 4 else pc + 2 := by cases b <;> rfl

/-- Where the key-wait leaves it. -/
theorem keyDirective_apply (kp : Keypad) (pc : Word) :
    (keyDirective kp).apply pc = if (leastKey kp).isSome = true then pc + 2 else pc := by
  unfold keyDirective
  split <;> rfl

/-! The tick (R110). -/

theorem noteFetch_notes (s : State) :
    s.noteFetch.notes = if 0xFFF ≤ s.pc.toNat then s.notes.mark .oobRead else s.notes := by
  rw [State.noteFetch, noteReads_notes]
  by_cases h : 0xFFF ≤ s.pc.toNat
  · simp [h, show 0x1000 < s.pc.toNat + 2 by omega]
  · simp [h, show ¬ 0x1000 < s.pc.toNat + 2 by omega]

theorem countDown_toNat (t : Byte) : (countDown t).toNat = t.toNat - 1 := by
  unfold countDown
  split
  · rename_i h; subst h; rfl
  · rename_i h
    have : t.toNat ≠ 0 := fun e => h (BitVec.eq_of_toNat_eq e)
    have := t.isLt
    rw [BitVec.toNat_sub]
    simp
    omega

theorem runWord_recognised {w : Word} {i : Instr} (h : decodeWord w = some i) (s : State) : runWord w s = exec i s := by
  simp [runWord, h]

theorem runWord_unrecognised {w : Word} (h : decodeWord w = none) (s : State) : runWord w s = execUnrecognised s := by
  simp [runWord, h]

end Sys2Proof.Machine
end

