-- ==== Sys2Proof/Laws/Decode.lean ====
section
/-! SUPPORT. Laws/Decode.lean: the fields and the mask of an encoded word, format by format (30_encoding.md R82, R92), and what the
decoder does with a word's bytes. -/
namespace Sys2Proof

/-! Masks: the operand bits of a format lie outside the mask of its rows. -/

/-- A 4-bit number in a word has no bit above bit 3. -/
theorem nibble_bit {v : Nat} (hv : v < 16) (j : Nat) (h : j < 16) (h4 : 4 ≤ j) : (BitVec.ofNat 16 v)[j] = false := by
  have : v.testBit j = false :=
    Nat.testBit_lt_two_pow (Nat.lt_of_lt_of_le hv (Nat.pow_le_pow_right (by decide) h4 : 2 ^ 4 ≤ 2 ^ j))
  rw [← BitVec.getLsbD_eq_getElem, BitVec.getLsbD_ofNat, this, Bool.and_false]

theorem encNNN_mask (m : Word) (nnn : Addr) : encNNN m nnn &&& 0xF000 = m &&& 0xF000 := by
  unfold encNNN
  apply BitVec.eq_of_getLsbD_eq
  intro k hk
  interval_cases k <;> simp

theorem encXNN_mask (m : Word) (x : Reg) (nn : Byte) : encXNN m x nn &&& 0xF000 = m &&& 0xF000 := by
  unfold encXNN
  apply BitVec.eq_of_getLsbD_eq
  intro k hk
  interval_cases k <;> simp [nibble_bit x.isLt]

theorem encXYN_mask (m : Word) (x y : Reg) (n : Nat) (hn : n < 16) : encXYN m x y n &&& 0xF000 = m &&& 0xF000 := by
  unfold encXYN
  apply BitVec.eq_of_getLsbD_eq
  intro k hk
  interval_cases k <;> simp [nibble_bit x.isLt, nibble_bit y.isLt, nibble_bit hn]

/-! Fields: an operand stands where R82 says, for a pattern whose operand bits are 0. -/

/-- A pattern with no operand bit set. -/
theorem patternBit_clear {m : Word} (hm : m.extractLsb' 0 12 = 0) {k : Nat} (hk : k < 12) : m.getLsbD k = false := by
  have := congrArg (BitVec.getLsbD · k) hm
  simpa [hk] using this

theorem operandBit_clear {m : Word} (hm : m.extractLsb' 0 12 = 0) (k : Nat) (h : k < 16) (hk : k < 12) : m[k] = false := by
  rw [← BitVec.getLsbD_eq_getElem, patternBit_clear hm hk]

/-- A register number is its four bits. -/
theorem reg_of_bits {v : BitVec 4} {x : Reg} (h : ∀ k, (hk : k < 4) → v[k] = (BitVec.ofNat 16 x.val)[k]) : v.toFin = x := by
  have hv : v = BitVec.ofFin x := by
    apply BitVec.eq_of_getElem_eq
    intro k hk
    rw [h k hk, ← BitVec.getLsbD_eq_getElem, ← BitVec.getLsbD_eq_getElem, BitVec.getLsbD_ofNat]
    simp [BitVec.getLsbD, show k < 16 by omega]
  rw [hv]

theorem fields_encNNN (m : Word) (nnn : Addr) (hm : m.extractLsb' 0 12 = 0) : (fields (encNNN m nnn)).nnn = nnn := by
  change (encNNN m nnn).extractLsb' 0 12 = nnn
  apply BitVec.eq_of_getElem_eq
  intro k hk
  simp [encNNN, operandBit_clear hm k (by omega) hk, hk, show k < 16 by omega]

theorem fields_encXNN (m : Word) (x : Reg) (nn : Byte) (hm : m.extractLsb' 0 12 = 0) :
    (fields (encXNN m x nn)).x = x ∧ (fields (encXNN m x nn)).nn = nn := by
  constructor
  · change ((encXNN m x nn).extractLsb' 8 4).toFin = x
    apply reg_of_bits
    intro k hk
    interval_cases k <;> simp [encXNN, operandBit_clear hm]
  · change (encXNN m x nn).extractLsb' 0 8 = nn
    apply BitVec.eq_of_getElem_eq
    intro k hk
    simp [encXNN, operandBit_clear hm k (by omega) (by omega), hk, show k < 16 by omega]

theorem fields_encXYN (m : Word) (x y : Reg) (n : Nat) (hn : n < 16) (hm : m.extractLsb' 0 12 = 0) :
    (fields (encXYN m x y n)).x = x ∧ (fields (encXYN m x y n)).y = y ∧ (fields (encXYN m x y n)).n = n := by
  refine ⟨?_, ?_, ?_⟩
  · change ((encXYN m x y n).extractLsb' 8 4).toFin = x
    apply reg_of_bits
    intro k hk
    interval_cases k <;> simp [encXYN, operandBit_clear hm, nibble_bit y.isLt, nibble_bit hn]
  · change ((encXYN m x y n).extractLsb' 4 4).toFin = y
    apply reg_of_bits
    intro k hk
    interval_cases k <;> simp [encXYN, operandBit_clear hm, nibble_bit hn]
  · have h : (encXYN m x y n).extractLsb' 0 4 = BitVec.ofNat 4 n := by
      apply BitVec.eq_of_getElem_eq
      intro k hk
      interval_cases k <;> simp [encXYN, operandBit_clear hm] <;>
        simp [← BitVec.getLsbD_eq_getElem, BitVec.getLsbD_ofNat]
    change ((encXYN m x y n).extractLsb' 0 4).toNat = n
    simp [h, Nat.mod_eq_of_lt hn]

/-! Words and bytes. -/

theorem decode_wordBytes (w : Word) (rest : List Byte) :
    decode (wordBytes w ++ rest) = match decodeWord w with
      | some i => .ok (i, rest)
      | none => .error (.unrecognised w) := by
  have h : (w.extractLsb' 8 8 ++ w.extractLsb' 0 8 : BitVec 16) = w := by
    apply BitVec.eq_of_getLsbD_eq
    intro k hk
    rw [BitVec.getLsbD_append]
    by_cases h8 : k < 8
    · simp [h8]
    · simp [h8, show k - 8 < 8 by omega, show 8 + (k - 8) = k by omega]
  cases hd : decodeWord w <;> simp [wordBytes, decode, h, hd]

/-- The word the host places is the word the decoder reads. -/
theorem decodeTableWord_eq (w : Nat) : decodeTableWord 16 w = decodeWord (BitVec.ofNat 16 w) := by
  have h : BitVec.ofNat 16 (w % 2 ^ 16) = BitVec.ofNat 16 w := by
    apply BitVec.eq_of_toNat_eq
    simp
  have hd := decode_wordBytes (BitVec.ofNat 16 w) []
  rw [List.append_nil] at hd
  rw [decodeTableWord, h, hd]
  cases decodeWord (BitVec.ofNat 16 w) <;> rfl

end Sys2Proof
end

