-- ==== Sys2Proof/Laws/Draw.lean ====
section
/-! SUPPORT. Laws/Draw.lean: what drawing a pixel, a byte and a sprite does to each cell and to the collision (R185 to R188). -/
namespace Sys2Proof.Machine

theorem cellAt_setCell (f : Frame) (r r' : Fin 32) (c c' : Fin 64) (b : Bool) :
    cellAt (setCell r c b f) r' c' = if r' = r ∧ c' = c then b else cellAt f r' c' := by
  by_cases hr : r' = r
  · subst hr
    by_cases hc : c' = c
    · subst hc; simp [cellAt, setCell]
    · have : c.val ≠ c'.val := fun e => hc (Fin.ext e.symm)
      simp [cellAt, setCell, hc, this]
  · have : r.val ≠ r'.val := fun e => hr (Fin.ext e.symm)
    simp [cellAt, setCell, hr, this]

theorem cellAt_blankFrame (r : Fin 32) (c : Fin 64) : cellAt blankFrame r c = false := by
  simp [cellAt, blankFrame]

/-- Frame buffers with equal cells are equal. -/
theorem frame_ext {f g : Frame} (h : ∀ r c, cellAt f r c = cellAt g r c) : f = g := by
  apply Vector.ext
  intro r hr
  apply Vector.ext
  intro c hc
  exact h ⟨r, hr⟩ ⟨c, hc⟩

theorem drawPixel_cell (r r' : Fin 32) (c c' : Fin 64) (b : Bool) (p : Frame × Bool) :
    cellAt (drawPixel r c b p).1 r' c' = (cellAt p.1 r' c' ^^ (decide (r' = r ∧ c' = c) && b)) := by
  by_cases h : r' = r ∧ c' = c
  · obtain ⟨rfl, rfl⟩ := h; simp [drawPixel, cellAt_setCell]
  · simp [drawPixel, cellAt_setCell, h]

theorem drawPixel_hit (r : Fin 32) (c : Fin 64) (b : Bool) (p : Frame × Bool) :
    (drawPixel r c b p).2 = true ↔ p.2 = true ∨ cellAt p.1 r c = true ∧ b = true := by
  simp [drawPixel]

/-- The pixel a sprite byte drawn in row `y` from column `x0` lays on a cell (R186, R187). -/
def bytePixel (y x0 : Nat) (v : Byte) (r : Fin 32) (c : Fin 64) : Bool :=
  decide (r.val = y % 32) && (decide ((c.val + 64 - x0 % 64) % 64 < 8) && v.getLsbD (7 - (c.val + 64 - x0 % 64) % 64))

/-- The pixel a column loop up to offset `k` lays on a cell. -/
theorem drawColumns_cell (y x0 k : Nat) (hk : k ≤ 8) (v : Byte) (r : Fin 32) (c : Fin 64) (p : Frame × Bool) :
    cellAt ((List.range k).foldl (fun p c => drawPixel (Fin.ofNat 32 y) (Fin.ofNat 64 (x0 + c)) (spriteBit v c) p) p).1 r c =
      (cellAt p.1 r c ^^ (decide (r.val = y % 32) && (decide ((c.val + 64 - x0 % 64) % 64 < k) &&
        v.getLsbD (7 - (c.val + 64 - x0 % 64) % 64)))) := by
  induction k with
  | zero => simp
  | succ k ih =>
    rw [List.range_succ, List.foldl_append, List.foldl_cons, List.foldl_nil, drawPixel_cell, ih (by omega)]
    have hr : (r = Fin.ofNat 32 y) ↔ r.val = y % 32 := by simp [Fin.ext_iff]
    have hc : (c = Fin.ofNat 64 (x0 + k)) ↔ (c.val + 64 - x0 % 64) % 64 = k := by
      simp only [Fin.ext_iff, Fin.val_ofNat]
      omega
    simp only [hr, hc, spriteBit]
    generalize (c.val + 64 - x0 % 64) % 64 = d
    by_cases h1 : r.val = y % 32
    · by_cases h2 : d = k
      · subst h2; simp [h1]
      · by_cases h3 : d < k
        · simp [h1, h2, h3, show d < k + 1 by omega]
        · simp [h1, h2, h3, show ¬ d < k + 1 by omega]
    · simp [h1]

theorem drawByte_cell (y x0 : Nat) (v : Byte) (r : Fin 32) (c : Fin 64) (p : Frame × Bool) :
    cellAt (drawByte y x0 v p).1 r c = (cellAt p.1 r c ^^ bytePixel y x0 v r c) :=
  drawColumns_cell y x0 8 (le_refl 8) v r c p

/-- The collision of a column loop: a set cell met by a set pixel, the cell as it was before the byte. -/
theorem drawColumns_hit (y x0 k : Nat) (hk : k ≤ 8) (v : Byte) (p : Frame × Bool) :
    ((List.range k).foldl (fun p c => drawPixel (Fin.ofNat 32 y) (Fin.ofNat 64 (x0 + c)) (spriteBit v c) p) p).2 = true ↔
      p.2 = true ∨ ∃ j, j < k ∧ cellAt p.1 (Fin.ofNat 32 y) (Fin.ofNat 64 (x0 + j)) = true ∧ v.getLsbD (7 - j) = true := by
  induction k with
  | zero => simp
  | succ k ih =>
    rw [List.range_succ, List.foldl_append, List.foldl_cons, List.foldl_nil]
    have hcell := drawColumns_cell y x0 k (by omega) v (Fin.ofNat 32 y) (Fin.ofNat 64 (x0 + k)) p
    have hd : ((x0 + k) % 64 + 64 - x0 % 64) % 64 = k := by omega
    simp only [Fin.val_ofNat, hd, Nat.lt_irrefl, decide_false, Bool.false_and, Bool.and_false, Bool.xor_false] at hcell
    rw [drawPixel_hit, hcell, ih (by omega), spriteBit]
    constructor
    · rintro ((h | ⟨j, hj, h⟩) | h)
      · exact .inl h
      · exact .inr ⟨j, by omega, h⟩
      · exact .inr ⟨k, by omega, h⟩
    · rintro (h | ⟨j, hj, h⟩)
      · exact .inl (.inl h)
      · by_cases hjk : j = k
        · subst hjk; exact .inr h
        · exact .inl (.inr ⟨j, by omega, h⟩)

theorem drawByte_hit (y x0 : Nat) (v : Byte) (p : Frame × Bool) :
    (drawByte y x0 v p).2 = true ↔ p.2 = true ∨ ∃ r c, cellAt p.1 r c = true ∧ bytePixel y x0 v r c = true := by
  rw [drawByte, drawColumns_hit y x0 8 (le_refl 8) v p]
  refine or_congr_right ⟨?_, ?_⟩
  · rintro ⟨j, hj, hc, hv⟩
    refine ⟨_, _, hc, ?_⟩
    have hd : ((x0 + j) % 64 + 64 - x0 % 64) % 64 = j := by omega
    simp [bytePixel, hd, hj, hv]
  · rintro ⟨r, c, hc, hv⟩
    simp only [bytePixel, Bool.and_eq_true, decide_eq_true_eq] at hv
    obtain ⟨hr, hlt, hv⟩ := hv
    have er : Fin.ofNat 32 y = r := Fin.ext (by simp [hr])
    have ec : Fin.ofNat 64 (x0 + (c.val + 64 - x0 % 64) % 64) = c := Fin.ext (by simp only [Fin.val_ofNat]; omega)
    exact ⟨_, hlt, by rw [er, ec]; exact hc, hv⟩

/-- The pixel a sprite drawn from row `y0`, column `x0` lays on a cell: the byte its row offset selects. -/
def rowsPixel (y0 x0 : Nat) (vs : List Byte) (r : Fin 32) (c : Fin 64) : Bool :=
  bytePixel r.val x0 (vs[(r.val + 32 - y0 % 32) % 32]?.getD 0) r c

theorem rowsPixel_nil (y0 x0 : Nat) (r : Fin 32) (c : Fin 64) : rowsPixel y0 x0 [] r c = false := by
  simp [rowsPixel, bytePixel]

/-- A sprite of at most 32 rows is its first byte and the rest, on distinct rows (R188). -/
theorem rowsPixel_cons (y0 x0 : Nat) (v : Byte) (vs : List Byte) (hl : vs.length < 32) (r : Fin 32) (c : Fin 64) :
    rowsPixel y0 x0 (v :: vs) r c = (bytePixel y0 x0 v r c ^^ rowsPixel (y0 + 1) x0 vs r c) ∧
      (bytePixel y0 x0 v r c && rowsPixel (y0 + 1) x0 vs r c) = false := by
  have hrow : r.val % 32 = r.val := Nat.mod_eq_of_lt r.isLt
  by_cases h : r.val = y0 % 32
  · have h0 : (r.val + 32 - y0 % 32) % 32 = 0 := by omega
    have h1 : (r.val + 32 - (y0 + 1) % 32) % 32 = 31 := by omega
    have hnone : vs[31]? = none := List.getElem?_eq_none (by omega)
    simp [rowsPixel, bytePixel, h1, hnone, ← h, hrow]
  · obtain ⟨d, hd⟩ : ∃ d, (r.val + 32 - y0 % 32) % 32 = d + 1 := ⟨(r.val + 32 - y0 % 32) % 32 - 1, by omega⟩
    have h1 : (r.val + 32 - (y0 + 1) % 32) % 32 = d := by omega
    simp [rowsPixel, bytePixel, hd, h1, h, hrow]

/-- Everything a sprite of at most 32 rows does to a cell. -/
theorem drawRows_cell (x0 y0 : Nat) (vs : List Byte) (hl : vs.length ≤ 32) (r : Fin 32) (c : Fin 64) (p : Frame × Bool) :
    cellAt (drawRows x0 y0 vs p).1 r c = (cellAt p.1 r c ^^ rowsPixel y0 x0 vs r c) := by
  induction vs generalizing y0 p with
  | nil => simp [drawRows, rowsPixel_nil]
  | cons v vs ih =>
    simp only [List.length_cons] at hl
    rw [drawRows, ih (y0 + 1) (by omega), drawByte_cell, (rowsPixel_cons y0 x0 v vs (by omega) r c).1, Bool.xor_assoc]

/-- The collision of a sprite of at most 32 rows: a cell that was set receives a set pixel. -/
theorem drawRows_hit (x0 y0 : Nat) (vs : List Byte) (hl : vs.length ≤ 32) (p : Frame × Bool) :
    (drawRows x0 y0 vs p).2 = true ↔ p.2 = true ∨ ∃ r c, cellAt p.1 r c = true ∧ rowsPixel y0 x0 vs r c = true := by
  induction vs generalizing y0 p with
  | nil => simp [drawRows, rowsPixel_nil]
  | cons v vs ih =>
    simp only [List.length_cons] at hl
    rw [drawRows, ih (y0 + 1) (by omega), drawByte_hit, or_assoc]
    refine or_congr_right ⟨?_, ?_⟩
    · rintro (⟨r, c, hc, hv⟩ | ⟨r, c, hc, hv⟩)
      · have h := rowsPixel_cons y0 x0 v vs (by omega) r c
        refine ⟨r, c, hc, ?_⟩
        rw [h.1]
        simpa [hv] using h.2
      · have h := rowsPixel_cons y0 x0 v vs (by omega) r c
        rw [hv, Bool.and_true] at h
        rw [drawByte_cell, h.2, Bool.xor_false] at hc
        exact ⟨r, c, hc, by rw [h.1, h.2]; rfl⟩
    · rintro ⟨r, c, hc, hv⟩
      have h := rowsPixel_cons y0 x0 v vs (by omega) r c
      by_cases hb : bytePixel y0 x0 v r c = true
      · exact .inl ⟨r, c, hc, hb⟩
      · have hb' : bytePixel y0 x0 v r c = false := by simpa using hb
        rw [h.1, hb', Bool.false_xor] at hv
        exact .inr ⟨r, c, by rw [drawByte_cell, hb', Bool.xor_false]; exact hc, hv⟩

/-- The sprite that `DRW` draws, in the terms of Safety.lean. -/
theorem rowsPixel_eq_spritePixel (s : State) (x y : Reg) (n : Nat) (r : Fin 32) (c : Fin 64) :
    rowsPixel (spriteRow (s.reg y)) (spriteColumn (s.reg x)) (s.readBytes (s.dataAddr 0) n) r c = s.spritePixel x y n r c := by
  have hrow : r.val % 32 = r.val := Nat.mod_eq_of_lt r.isLt
  simp only [rowsPixel, bytePixel, State.spritePixel, spriteRow, spriteColumn, State.readBytes, State.dataAddr, Nat.mod_mod, hrow,
    decide_true, Bool.true_and]
  generalize (r.val + 32 - (s.reg y).toNat % 32) % 32 = dr
  by_cases h : dr < n <;> simp [h]

end Sys2Proof.Machine
end

