-- ==== Sys2Proof/Laws/PerInstr.lean ====
section
/-! SUPPORT. Laws/PerInstr.lean: per instruction, the family RowWord: the encoded word of a well-formed instruction selects a row of
the table of 30_encoding.md R86, and that row builds the instruction back. -/
namespace Sys2Proof.Laws.RowWord

/-- Some row at position `k` of the table is selected by the encoded word and builds the instruction. -/
def Statement (i : Instr) : Prop :=
  i.WellFormed → ∃ (k : Fin 34) (r : Row), opcodeTable[k.val]? = some r ∧ r.selects (encodeWord i) = true ∧
    r.build (fields (encodeWord i)) = i

/-- A word whose masked bits are the row's pattern selects the row. -/
theorem selects_of_mask {r : Row} {w p : Word} (h : w &&& r.mask = p &&& r.mask) (hp : p &&& r.mask = r.pattern) : r.selects w = true :=
  beq_iff_eq.mpr (h.trans hp)

theorem cls : Statement (.cls) := fun _ =>
  ⟨0, _, rfl, by decide, by decide⟩
theorem ret : Statement (.ret) := fun _ =>
  ⟨1, _, rfl, by decide, by decide⟩
theorem jp (nnn : Addr) : Statement (.jp nnn) := fun _ =>
  ⟨2, _, rfl, selects_of_mask (encNNN_mask 0x1000 nnn) (by decide), congrArg Instr.jp (fields_encNNN 0x1000 nnn (by decide))⟩
theorem call (nnn : Addr) : Statement (.call nnn) := fun _ =>
  ⟨3, _, rfl, selects_of_mask (encNNN_mask 0x2000 nnn) (by decide), congrArg Instr.call (fields_encNNN 0x2000 nnn (by decide))⟩
theorem seByte (x : Reg) (nn : Byte) : Statement (.seByte x nn) := fun _ =>
  ⟨4, _, rfl, selects_of_mask (encXNN_mask 0x3000 x nn) (by decide),
    congrArg₂ Instr.seByte (fields_encXNN 0x3000 x nn (by decide)).1 (fields_encXNN 0x3000 x nn (by decide)).2⟩
theorem sneByte (x : Reg) (nn : Byte) : Statement (.sneByte x nn) := fun _ =>
  ⟨5, _, rfl, selects_of_mask (encXNN_mask 0x4000 x nn) (by decide),
    congrArg₂ Instr.sneByte (fields_encXNN 0x4000 x nn (by decide)).1 (fields_encXNN 0x4000 x nn (by decide)).2⟩
theorem seReg (x y : Reg) : Statement (.seReg x y) := fun _ =>
  ⟨6, _, rfl, by revert x y; decide, by revert x y; decide⟩
theorem sneReg (x y : Reg) : Statement (.sneReg x y) := fun _ =>
  ⟨7, _, rfl, by revert x y; decide, by revert x y; decide⟩
theorem skp (x : Reg) : Statement (.skp x) := fun _ =>
  ⟨8, _, rfl, by revert x; decide, by revert x; decide⟩
theorem sknp (x : Reg) : Statement (.sknp x) := fun _ =>
  ⟨9, _, rfl, by revert x; decide, by revert x; decide⟩
theorem ldByte (x : Reg) (nn : Byte) : Statement (.ldByte x nn) := fun _ =>
  ⟨10, _, rfl, selects_of_mask (encXNN_mask 0x6000 x nn) (by decide),
    congrArg₂ Instr.ldByte (fields_encXNN 0x6000 x nn (by decide)).1 (fields_encXNN 0x6000 x nn (by decide)).2⟩
theorem addByte (x : Reg) (nn : Byte) : Statement (.addByte x nn) := fun _ =>
  ⟨11, _, rfl, selects_of_mask (encXNN_mask 0x7000 x nn) (by decide),
    congrArg₂ Instr.addByte (fields_encXNN 0x7000 x nn (by decide)).1 (fields_encXNN 0x7000 x nn (by decide)).2⟩
theorem ldReg (x y : Reg) : Statement (.ldReg x y) := fun _ =>
  ⟨12, _, rfl, by revert x y; decide, by revert x y; decide⟩
theorem orReg (x y : Reg) : Statement (.orReg x y) := fun _ =>
  ⟨13, _, rfl, by revert x y; decide, by revert x y; decide⟩
theorem andReg (x y : Reg) : Statement (.andReg x y) := fun _ =>
  ⟨14, _, rfl, by revert x y; decide, by revert x y; decide⟩
theorem xorReg (x y : Reg) : Statement (.xorReg x y) := fun _ =>
  ⟨15, _, rfl, by revert x y; decide, by revert x y; decide⟩
theorem addReg (x y : Reg) : Statement (.addReg x y) := fun _ =>
  ⟨16, _, rfl, by revert x y; decide, by revert x y; decide⟩
theorem subReg (x y : Reg) : Statement (.subReg x y) := fun _ =>
  ⟨17, _, rfl, by revert x y; decide, by revert x y; decide⟩
theorem shr (x y : Reg) : Statement (.shr x y) := fun _ =>
  ⟨18, _, rfl, by revert x y; decide, by revert x y; decide⟩
theorem subnReg (x y : Reg) : Statement (.subnReg x y) := fun _ =>
  ⟨19, _, rfl, by revert x y; decide, by revert x y; decide⟩
theorem shl (x y : Reg) : Statement (.shl x y) := fun _ =>
  ⟨20, _, rfl, by revert x y; decide, by revert x y; decide⟩
theorem ldI (nnn : Addr) : Statement (.ldI nnn) := fun _ =>
  ⟨21, _, rfl, selects_of_mask (encNNN_mask 0xA000 nnn) (by decide), congrArg Instr.ldI (fields_encNNN 0xA000 nnn (by decide))⟩
theorem jpV0 (nnn : Addr) : Statement (.jpV0 nnn) := fun _ =>
  ⟨22, _, rfl, selects_of_mask (encNNN_mask 0xB000 nnn) (by decide), congrArg Instr.jpV0 (fields_encNNN 0xB000 nnn (by decide))⟩
theorem ldF (x : Reg) : Statement (.ldF x) := fun _ =>
  ⟨23, _, rfl, by revert x; decide, by revert x; decide⟩
theorem addI (x : Reg) : Statement (.addI x) := fun _ =>
  ⟨24, _, rfl, by revert x; decide, by revert x; decide⟩
theorem rnd (x : Reg) (nn : Byte) : Statement (.rnd x nn) := fun _ =>
  ⟨25, _, rfl, selects_of_mask (encXNN_mask 0xC000 x nn) (by decide),
    congrArg₂ Instr.rnd (fields_encXNN 0xC000 x nn (by decide)).1 (fields_encXNN 0xC000 x nn (by decide)).2⟩
theorem drw (x y : Reg) (n : Nat) : Statement (.drw x y n) := fun h =>
  ⟨26, _, rfl, selects_of_mask (encXYN_mask 0xD000 x y n (of_decide_eq_true h)) (by decide),
    have e := fields_encXYN 0xD000 x y n (of_decide_eq_true h) (by decide)
    congr (congrArg₂ Instr.drw e.1 e.2.1) e.2.2⟩
theorem ldB (x : Reg) : Statement (.ldB x) := fun _ =>
  ⟨27, _, rfl, by revert x; decide, by revert x; decide⟩
theorem storeRegs (x : Reg) : Statement (.storeRegs x) := fun _ =>
  ⟨28, _, rfl, by revert x; decide, by revert x; decide⟩
theorem loadRegs (x : Reg) : Statement (.loadRegs x) := fun _ =>
  ⟨29, _, rfl, by revert x; decide, by revert x; decide⟩
theorem ldVxDt (x : Reg) : Statement (.ldVxDt x) := fun _ =>
  ⟨30, _, rfl, by revert x; decide, by revert x; decide⟩
theorem ldDtVx (x : Reg) : Statement (.ldDtVx x) := fun _ =>
  ⟨31, _, rfl, by revert x; decide, by revert x; decide⟩
theorem ldStVx (x : Reg) : Statement (.ldStVx x) := fun _ =>
  ⟨32, _, rfl, by revert x; decide, by revert x; decide⟩
theorem ldVxK (x : Reg) : Statement (.ldVxK x) := fun _ =>
  ⟨33, _, rfl, by revert x; decide, by revert x; decide⟩

end Sys2Proof.Laws.RowWord
end

