-- ==== Sys2Proof/Laws/Step.lean ====
section
/-! SUPPORT. Laws/Step.lean: what a meaning, a word, a tick and a step can do, said once; claims about all of them start here. -/
namespace Sys2Proof.Machine

/-! Notes of the operations that look before they note. -/

theorem noteKey_notes (v : Byte) (s : State) :
    (s.noteKey v).notes = if 15 < v.toNat then s.notes.mark .keyIndexRange else s.notes := by
  unfold State.noteKey
  split <;> rfl

theorem pushReturn_notes (a : Word) (s : State) :
    (s.pushReturn a).notes = if s.sp.val = 16 then s.notes.mark .stackOverflow else s.notes := by
  by_cases h : s.sp.val = 16
  · rw [pushReturn_full (Fin.ext h), if_pos h, note_notes]
  · rw [pushReturn_room (by omega), if_neg h]

theorem popReturn_notes (s : State) :
    s.popReturn.notes = if s.sp.val = 0 then s.notes.mark .stackUnderflow else s.notes := by
  by_cases h : s.sp.val = 0
  · rw [popReturn_empty (Fin.ext h), if_pos h, note_notes]
  · rw [popReturn_held h, if_neg h]

/-! The host's transactions. -/

@[simp] theorem nextOp_cfg (s : State) : s.nextOp.2.cfg = s.cfg := by unfold State.nextOp; split <;> rfl
@[simp] theorem nextOp_mem (s : State) : s.nextOp.2.mem = s.mem := by unfold State.nextOp; split <;> rfl
@[simp] theorem nextOp_notes (s : State) : s.nextOp.2.notes = s.notes := by unfold State.nextOp; split <;> rfl

/-- Everything `LoadProgram` does: the copy, `pc`, no report, and the note of a truncation. -/
theorem loadProgram_eq (bytes : List Byte) (s : State) : s.loadProgram bytes =
    { s with
      mem := Memory.writeList s.cfg progBase (bytes.take progMax) s.mem
      pc := 0x200
      report := none
      notes := if progMax < bytes.length then s.notes.mark .loadTruncated else s.notes } := by
  unfold State.loadProgram
  split <;> rfl

/-! Instructions. -/

/-- A meaning that answers a next state answers the completed one. -/
theorem complete_inv {d : Directive} {s t : State} (h : s.complete d = .next t) : t = s.advance d := by
  cases h
  rfl

/-- Every instruction answers a next state in every state. -/
theorem exec_next (i : Instr) (s : State) : ∃ t, exec i s = .next t := by
  cases i <;> exact ⟨_, rfl⟩

/-- No instruction touches the latch, the ports, the host's queue or the parameters. -/
theorem exec_boundary {i : Instr} {s t : State} (h : exec i s = .next t) :
    t.kp = s.kp ∧ t.rnd = s.rnd ∧ t.report = s.report ∧ t.host = s.host ∧ t.draws = s.draws ∧ t.cfg = s.cfg := by
  cases i <;> (have := complete_inv h; subst this; simp)

/-- Only the two storing instructions touch memory. -/
theorem exec_mem_or_store {i : Instr} {s t : State} (h : exec i s = .next t) :
    (∃ x, i = .ldB x ∨ i = .storeRegs x) ∨ t.mem = s.mem := by
  cases i <;> (have := complete_inv h; subst this; simp)

/-- Every instruction keeps memory canonical. -/
theorem exec_wf {i : Instr} {s t : State} (hw : Memory.wf s.cfg s.mem) (h : exec i s = .next t) : Memory.wf t.cfg t.mem := by
  rw [(exec_boundary h).2.2.2.2.2]
  rcases exec_mem_or_store h with ⟨x, rfl | rfl⟩ | hm
  · have := complete_inv h
    subst this
    exact writeBytes_wf _ _ hw
  · have := complete_inv h
    subst this
    exact writeBytes_wf _ _ hw
  · rw [hm]; exact hw

/-! Words, ticks and steps. -/

/-- A word is an instruction or a no-op that notes itself (R116, R118). -/
theorem runWord_cases {w : Word} {s t : State} (h : runWord w s = .next t) :
    (∃ i, decodeWord w = some i ∧ exec i s = .next t) ∨ (decodeWord w = none ∧ t = (s.note .unrecognisedWord).advance .next) := by
  unfold runWord at h
  split at h
  · exact .inl ⟨_, ‹_›, h⟩
  · exact .inr ⟨‹_›, complete_inv h⟩

/-- Every tick runs the fetched word to a next state and then reports. -/
theorem tick_eq (keypad : Keypad) (rnd : Byte) (s : State) :
    ∃ t, runWord (s.beginTick keypad rnd).fetchWord (s.beginTick keypad rnd).noteFetch = .next t ∧
      tick keypad rnd s = .next t.endTick := by
  have hr : ∃ t, runWord (s.beginTick keypad rnd).fetchWord (s.beginTick keypad rnd).noteFetch = .next t := by
    unfold runWord
    split
    · exact exec_next _ _
    · exact ⟨_, rfl⟩
  obtain ⟨t, ht⟩ := hr
  exact ⟨t, ht, by rw [tick, ht, finishTick_next]⟩

/-- The fetch of a tick reads the memory and the program counter the tick found. -/
theorem fetchWord_beginTick (keypad : Keypad) (rnd : Byte) (s : State) : (s.beginTick keypad rnd).fetchWord = s.fetchWord := rfl

/-- What a step can do: the one of the four transactions that was next. -/
theorem step_cases {s t : State} (h : step s = .next t) :
    (s.nextOp.1 = .powerOn ∧ t = s.nextOp.2.powerOn) ∨ (s.nextOp.1 = .reset ∧ t = s.nextOp.2.hostReset) ∨
    (∃ bytes, s.nextOp.1 = .loadProgram bytes ∧ t = s.nextOp.2.loadProgram bytes) ∨
    ∃ keypad rnd u, s.nextOp.1 = .tick keypad rnd ∧
      runWord s.nextOp.2.fetchWord (s.nextOp.2.beginTick keypad rnd).noteFetch = .next u ∧ t = u.endTick := by
  unfold step transact at h
  split at h
  · rename_i e; cases h; exact .inl ⟨e, rfl⟩
  · rename_i e; cases h; exact .inr (.inl ⟨e, rfl⟩)
  · rename_i bytes e; cases h; exact .inr (.inr (.inl ⟨bytes, e, rfl⟩))
  · rename_i keypad rnd e
    obtain ⟨u, hu, ht⟩ := tick_eq keypad rnd s.nextOp.2
    rw [ht] at h
    cases h
    exact .inr (.inr (.inr ⟨keypad, rnd, u, e, hu, rfl⟩))

end Sys2Proof.Machine
end

