-- ==== Sys2Proof/Tests/Slice0.lean ====
section
/-! SUPPORT. Tests/Slice0.lean: words and one-step results taken from the spec's own examples (30_encoding.md R86, R93; the "Example" lines
of files 41 to 47; 95_test_vectors.md), and for every obligation with hypotheses a witness that meets them. -/
namespace Sys2Proof.Machine

/-! Helpers. -/

/-- A keypad snapshot from its 16-bit number: bit `k` is key `k` (95_test_vectors.md). -/
def keypadOf (m : Nat) : Keypad := Vector.ofFn fun k => m.testBit k.val

/-- Bytes put into memory. -/
def withBytes (a : Nat) (vs : List Byte) (s : State) : State := { s with mem := Memory.writeList s.cfg a vs s.mem }

/-- Cells of the frame buffer set to 1. -/
def withCells (cells : List (Fin 32 × Fin 64)) (s : State) : State :=
  { s with fb := cells.foldl (fun f p => setCell p.1 p.2 true f) s.fb }

/-- What an answer gives, where it is a next state. -/
def after (p : State → Bool) : Answer → Bool
  | .next s => p s
  | .fault _ => false
  | .refused _ => false

/-- One `Tick` with the word `w` at the program counter of `s`; then `p` holds. -/
def runs (w : Nat) (keypad : Nat) (rnd : Byte) (s : State) (p : State → Bool) : Bool :=
  after p (step ({ s with host := [.tick (keypadOf keypad) rnd] }.withFetchWord 16 w))

/-- The same with no key down and random byte 0. -/
def quiet (w : Nat) (s : State) (p : State → Bool) : Bool := runs w 0 0 s p

/-- The state after reset with some registers set. -/
def withRegs (rs : List (Reg × Byte)) (s : State) : State := rs.foldl (fun t p => t.setReg p.1 p.2) s

/-- The columns of a row that are 1. -/
def columnsSet (s : State) (r : Fin 32) : List Nat := (List.range 64).filter fun c => cellAt s.fb r (Fin.ofNat 64 c)

/-! WellFormed: the one check refuses what no encoding holds (R83). -/

theorem test_wellFormed_refuses_sixteen_rows : (Instr.drw 0 0 16).wellFormed = false := by decide
theorem test_wellFormed_takes_fifteen_rows : (Instr.drw 15 15 15).wellFormed = true := by decide

/-! Decoding: one word of every row, written out from the pattern column of R86. -/

theorem test_decode_control :
    decodeWord 0x00E0 = some .cls ∧ decodeWord 0x00EE = some .ret ∧ decodeWord 0x1ABC = some (.jp 0xABC) ∧
    decodeWord 0x220C = some (.call 0x20C) ∧ decodeWord 0x3AFE = some (.seByte 0xA 0xFE) ∧
    decodeWord 0x4AFE = some (.sneByte 0xA 0xFE) ∧ decodeWord 0x5AB0 = some (.seReg 0xA 0xB) ∧
    decodeWord 0x9AB0 = some (.sneReg 0xA 0xB) ∧ decodeWord 0xE49E = some (.skp 4) ∧ decodeWord 0xE4A1 = some (.sknp 4) := by decide
theorem test_decode_register :
    decodeWord 0x6105 = some (.ldByte 1 0x05) ∧ decodeWord 0x71FF = some (.addByte 1 0xFF) ∧ decodeWord 0x8230 = some (.ldReg 2 3) ∧
    decodeWord 0x8231 = some (.orReg 2 3) ∧ decodeWord 0x8232 = some (.andReg 2 3) ∧ decodeWord 0x8233 = some (.xorReg 2 3) ∧
    decodeWord 0x8AB4 = some (.addReg 0xA 0xB) ∧ decodeWord 0x8AB5 = some (.subReg 0xA 0xB) ∧ decodeWord 0x8AB6 = some (.shr 0xA 0xB) ∧
    decodeWord 0x8AB7 = some (.subnReg 0xA 0xB) ∧ decodeWord 0x8ABE = some (.shl 0xA 0xB) := by decide
theorem test_decode_index_random_draw :
    decodeWord 0xA300 = some (.ldI 0x300) ∧ decodeWord 0xB210 = some (.jpV0 0x210) ∧ decodeWord 0xF729 = some (.ldF 7) ∧
    decodeWord 0xF71E = some (.addI 7) ∧ decodeWord 0xC30F = some (.rnd 3 0x0F) ∧ decodeWord 0xD125 = some (.drw 1 2 5) := by decide
theorem test_decode_memory_timer :
    decodeWord 0xF733 = some (.ldB 7) ∧ decodeWord 0xF755 = some (.storeRegs 7) ∧ decodeWord 0xF265 = some (.loadRegs 2) ∧
    decodeWord 0xF207 = some (.ldVxDt 2) ∧ decodeWord 0xF715 = some (.ldDtVx 7) ∧ decodeWord 0xF718 = some (.ldStVx 7) ∧
    decodeWord 0xF10A = some (.ldVxK 1) := by decide
/-- The unrecognised words that 95_test_vectors.md 2.1 lists. -/
theorem test_decode_refuses : ([0x0000, 0x00E1, 0x00EF, 0x00FE, 0x0123, 0x00C1, 0x00FD, 0x00FF, 0x5AB1, 0x5ABF, 0x9AB1].all
    fun w => (decodeWord w).isNone) = true := by decide
theorem test_decode_refuses_more : ([0x8AB8, 0x8ABD, 0x8ABF, 0xE000, 0xE09F, 0xE0A0, 0xF000, 0xF01F, 0xF066, 0xF075, 0xF085, 0xF0FF].all
    fun w => (decodeWord w).isNone) = true := by decide
/-- The bytes of R93. -/
theorem test_encode_bytes : encode (.ldByte 1 0x05) = [0x61, 0x05] ∧ encode (.drw 1 2 5) = [0xD1, 0x25] ∧
    encode (.call 0x20C) = [0x22, 0x0C] ∧ encode (.loadRegs 2) = [0xF2, 0x65] := by decide
theorem test_decode_truncated : decode [0x61] = .error .truncated := by decide

/-! The tick (95_test_vectors.md 2.1). -/

theorem test_tick_odd_pc : after (fun s => s.reg 0xA == 0x12 && s.pc == 0x203)
    (step { withBytes 0x200 [0x00, 0x6A, 0x12] State.reset with pc := 0x201, host := [.tick (keypadOf 0) 0] }) = true := by decide
theorem test_tick_fetch_at_last_byte : after (fun s => s.reg 0 == 0 && s.pc == 0x1001 && s.notes.oobRead)
    (step { withBytes 0xFFF [0x60] State.reset with pc := 0xFFF, host := [.tick (keypadOf 0) 0] }) = true := by decide
theorem test_tick_fetch_wraps_pc : after (fun s => s.pc == 0x0001 && s.notes.oobRead && s.notes.unrecognisedWord)
    (step { State.reset with pc := 0xFFFF, host := [.tick (keypadOf 0) 0] }) = true := by decide
theorem test_tick_unrecognised : quiet 0x5AB1 (withRegs [(15, 7)] { State.reset with dt := 5, st := 1 })
    (fun s => s.pc == 0x202 && s.dt == 4 && s.st == 0 && s.reg 15 == 7 && s.report == some ⟨false, false⟩ && s.notes.unrecognisedWord) = true := by decide
theorem test_tick_sound_of_two : quiet 0x6000 { State.reset with st := 2 } (fun s => s.st == 1 && s.report == some ⟨false, true⟩) = true := by decide

/-! Control flow (2.2). -/

theorem test_cls : quiet 0x00E0 (withCells [(3, 5), (31, 63)] State.reset)
    (fun s => !s.fb[3][5] && !s.fb[31][63] && !s.fb[0][0] && s.report == some ⟨true, false⟩ && s.pc == 0x202) = true := by decide
theorem test_ret : quiet 0x00EE { State.reset with pc := 0x400, sp := 2, stack := (State.reset.stack.set 0 0x206).set 1 0x310 }
    (fun s => s.pc == 0x310 && s.sp == 1 && s.stack[1] == 0x310) = true := by decide
theorem test_ret_empty : quiet 0x00EE { State.reset with stack := State.reset.stack.set 0 0xABC }
    (fun s => s.pc == 0xABC && s.sp == 0 && s.notes.stackUnderflow) = true := by decide
theorem test_jp : quiet 0x1FFF State.reset (fun s => s.pc == 0xFFF) = true := by decide
theorem test_call : quiet 0x2ABC { State.reset with pc := 0xFFE, sp := 15 }
    (fun s => s.stack[15] == 0x1000 && s.sp == 16 && s.pc == 0xABC && !s.notes.stackOverflow) = true := by decide
theorem test_call_full : quiet 0x2ABC { State.reset with pc := 0x300, sp := 16, stack := State.reset.stack.set 15 0x222 }
    (fun s => s.pc == 0xABC && s.sp == 16 && s.stack[15] == 0x222 && s.notes.stackOverflow) = true := by decide
theorem test_seByte : quiet 0x3AFF (withRegs [(0xA, 0xFF)] State.reset) (fun s => s.pc == 0x204) = true := by decide
theorem test_seByte_not : quiet 0x3AFF (withRegs [(0xA, 0xFE)] State.reset) (fun s => s.pc == 0x202) = true := by decide
theorem test_sneByte : quiet 0x4AFF (withRegs [(0xA, 0xFF)] State.reset) (fun s => s.pc == 0x202) = true := by decide
theorem test_sneByte_not : quiet 0x4AFF (withRegs [(0xA, 0xFE)] State.reset) (fun s => s.pc == 0x204) = true := by decide
theorem test_seReg : quiet 0x5AB0 (withRegs [(0xA, 3), (0xB, 3)] State.reset) (fun s => s.pc == 0x204) = true := by decide
theorem test_seReg_not : quiet 0x5AB0 (withRegs [(0xA, 3), (0xB, 4)] State.reset) (fun s => s.pc == 0x202) = true := by decide
theorem test_sneReg : quiet 0x9AB0 (withRegs [(0xA, 3), (0xB, 3)] State.reset) (fun s => s.pc == 0x202) = true := by decide
theorem test_sneReg_not : quiet 0x9AB0 (withRegs [(0xA, 3), (0xB, 4)] State.reset) (fun s => s.pc == 0x204) = true := by decide
theorem test_skp : runs 0xE09E 0x7FFF 0 (withRegs [(0, 0x0F)] State.reset) (fun s => s.pc == 0x202 && !s.notes.keyIndexRange) = true := by decide
theorem test_skp_above_fifteen : runs 0xE09E 0x0080 0 (withRegs [(0, 0x17)] State.reset)
    (fun s => s.pc == 0x204 && s.notes.keyIndexRange) = true := by decide
theorem test_sknp : runs 0xE0A1 0xFFFE 0 State.reset (fun s => s.pc == 0x204) = true := by decide
theorem test_sknp_above_fifteen : runs 0xE0A1 0x0080 0 (withRegs [(0, 0x17)] State.reset)
    (fun s => s.pc == 0x202 && s.notes.keyIndexRange) = true := by decide

/-! Registers (2.3). -/

theorem test_ldByte : quiet 0x6AFF State.reset (fun s => s.reg 0xA == 0xFF && s.reg 15 == 0 && s.pc == 0x202) = true := by decide
theorem test_addByte : quiet 0x7001 (withRegs [(0, 0xFF), (15, 1)] State.reset) (fun s => s.reg 0 == 0 && s.reg 15 == 1) = true := by decide
theorem test_ldReg : quiet 0x8120 (withRegs [(1, 1), (2, 0x7E)] State.reset) (fun s => s.reg 1 == 0x7E && s.reg 2 == 0x7E) = true := by decide
theorem test_orReg : quiet 0x8121 (withRegs [(1, 0xF0), (2, 0x3C), (15, 1)] State.reset) (fun s => s.reg 1 == 0xFC && s.reg 15 == 1) = true := by decide
theorem test_andReg : quiet 0x8122 (withRegs [(1, 0xF0), (2, 0x3C), (15, 1)] State.reset) (fun s => s.reg 1 == 0x30 && s.reg 15 == 1) = true := by decide
theorem test_xorReg : quiet 0x8123 (withRegs [(1, 0xF0), (2, 0x3C), (15, 1)] State.reset) (fun s => s.reg 1 == 0xCC && s.reg 15 == 1) = true := by decide
theorem test_addReg : quiet 0x8014 (withRegs [(0, 0xF0), (1, 0x20)] State.reset) (fun s => s.reg 0 == 0x10 && s.reg 15 == 1) = true := by decide
theorem test_addReg_flag_wins : quiet 0x8F14 (withRegs [(15, 0x10), (1, 0x20)] State.reset) (fun s => s.reg 15 == 0 && s.reg 1 == 0x20) = true := by decide
theorem test_subReg : quiet 0x8015 (withRegs [(0, 0x10), (1, 0x20)] State.reset) (fun s => s.reg 0 == 0xF0 && s.reg 15 == 0) = true := by decide
theorem test_subReg_equal : quiet 0x8015 (withRegs [(0, 5), (1, 5), (15, 1)] State.reset) (fun s => s.reg 0 == 0 && s.reg 15 == 0) = true := by decide
theorem test_shr : quiet 0x8016 (withRegs [(0, 5), (1, 0xFF)] State.reset) (fun s => s.reg 0 == 2 && s.reg 1 == 0xFF && s.reg 15 == 1) = true := by decide
theorem test_shr_flag_wins : quiet 0x8F06 (withRegs [(15, 3)] State.reset) (fun s => s.reg 15 == 1) = true := by decide
theorem test_subnReg : quiet 0x8017 (withRegs [(0, 0x10), (1, 0x20)] State.reset) (fun s => s.reg 0 == 0x10 && s.reg 15 == 1) = true := by decide
theorem test_subnReg_borrow : quiet 0x8017 (withRegs [(0, 0x20), (1, 0x10)] State.reset) (fun s => s.reg 0 == 0xF0 && s.reg 15 == 0) = true := by decide
theorem test_shl : quiet 0x820E (withRegs [(2, 0x81)] State.reset) (fun s => s.reg 2 == 2 && s.reg 15 == 1) = true := by decide
theorem test_shl_flag_wins : quiet 0x8F0E (withRegs [(15, 0x41)] State.reset) (fun s => s.reg 15 == 0) = true := by decide

/-! Index and random (2.4, 2.5). -/

theorem test_ldI : quiet 0xAFFF { State.reset with I := 0xFFFF } (fun s => s.I == 0x0FFF) = true := by decide
theorem test_jpV0_index : quiet 0xB210 (withRegs [(0, 4)] { State.reset with I := 0x300 }) (fun s => s.pc == 0x304) = true := by decide
theorem test_jpV0_operand : quiet 0xBFFF (withRegs [(0, 0xFF)] { State.reset with I := 0x300, cfg := { standardConfig with jp0Base := .operand } })
    (fun s => s.pc == 0x10FE) = true := by decide
theorem test_ldF : quiet 0xF029 (withRegs [(0, 0x0F)] State.reset) (fun s => s.I == 0x009B) = true := by decide
theorem test_ldF_no_mask : quiet 0xF029 (withRegs [(0, 0xFF)] State.reset) (fun s => s.I == 0x054B) = true := by decide
theorem test_addI : quiet 0xF11E (withRegs [(1, 0xFF)] { State.reset with I := 0xFF80 }) (fun s => s.I == 0x007F && s.reg 15 == 0) = true := by decide
theorem test_rnd : runs 0xC30F 0 0xA7 State.reset (fun s => s.reg 3 == 0x07 && s.pc == 0x202) = true := by decide

/-! Draw (2.6). -/

theorem test_drw_wraps : quiet 0xD122 (withRegs [(1, 0x7C), (2, 0x3F)] (withBytes 0x300 [0xFF, 0x81] { State.reset with I := 0x300 }))
    (fun s => columnsSet s 31 == [0, 1, 2, 3, 60, 61, 62, 63] && columnsSet s 0 == [3, 60] && s.reg 15 == 0 && s.reg 1 == 0x7C) = true := by decide
theorem test_drw_collides : quiet 0xD001 (withCells [(0, 0), (0, 1)] (withBytes 0x300 [0xA0] { State.reset with I := 0x300 }))
    (fun s => columnsSet s 0 == [1, 2] && s.reg 15 == 1 && s.report == some ⟨true, false⟩) = true := by decide

/-! Memory (2.7). -/

theorem test_ldB : quiet 0xF033 (withRegs [(0, 0xAE)] { State.reset with I := 0x200 })
    (fun s => s.readByte 0x200 == 1 && s.readByte 0x201 == 7 && s.readByte 0x202 == 4 && s.pc == 0x202 && s.I == 0x200) = true := by decide
theorem test_ldB_edge : quiet 0xF033 (withRegs [(0, 123)] { State.reset with I := 0xFFE })
    (fun s => s.readByte 0xFFE == 1 && s.readByte 0xFFF == 2 && s.readByte 0 == 0 && s.notes.oobWrite) = true := by decide
theorem test_storeRegs : quiet 0xF355 (withRegs [(0, 0x10), (1, 0x11), (2, 0x12), (3, 0x13), (4, 0x14)] { State.reset with I := 0x400 })
    (fun s => s.readBytes 0x400 5 == [0x10, 0x11, 0x12, 0x13, 0x00] && s.I == 0x400) = true := by decide
theorem test_storeRegs_no_wrap : quiet 0xF155 (withRegs [(0, 0x10), (1, 0x11)] { State.reset with I := 0xFFFF })
    (fun s => s.readByte 0 == 0 && s.readByte 1 == 0 && s.notes.oobWrite) = true := by decide
theorem test_loadRegs : quiet 0xF465 (withRegs [(5, 0x11)] { State.reset with I := 0x050 })
    (fun s => s.reg 0 == 0xF0 && s.reg 1 == 0x90 && s.reg 4 == 0xF0 && s.reg 5 == 0x11 && s.I == 0x050) = true := by decide
theorem test_loadRegs_edge : quiet 0xF265 (withRegs [(1, 0x11), (3, 0x11)] (withBytes 0xFFF [0x77] { State.reset with I := 0xFFF }))
    (fun s => s.reg 0 == 0x77 && s.reg 1 == 0 && s.reg 3 == 0x11 && s.notes.oobRead) = true := by decide

/-! Timers and keys (2.8). -/

theorem test_ldVxDt : quiet 0xF207 { State.reset with dt := 7 } (fun s => s.reg 2 == 6 && s.dt == 6) = true := by decide
theorem test_ldDtVx : quiet 0xF015 (withRegs [(0, 0xFF)] { State.reset with dt := 3 }) (fun s => s.dt == 0xFF) = true := by decide
theorem test_ldStVx : quiet 0xF018 (withRegs [(0, 1)] State.reset) (fun s => s.st == 1 && s.report == some ⟨false, true⟩) = true := by decide
theorem test_ldVxK_holds : quiet 0xF30A (withRegs [(3, 0xEE)] { State.reset with dt := 2, st := 2 })
    (fun s => s.pc == 0x200 && s.reg 3 == 0xEE && s.dt == 1 && s.report == some ⟨false, true⟩) = true := by decide
theorem test_ldVxK_lowest : runs 0xF30A 0x8010 0 State.reset (fun s => s.reg 3 == 4 && s.pc == 0x202) = true := by decide

/-! Host transactions (2.9). -/

theorem test_loadProgram : after (fun s => s.readBytes 0x200 4 == [0xAA, 2, 3, 4] && s.reg 3 == 9 && s.pc == 0x200)
    (step (withRegs [(3, 9)] (withBytes 0x200 [1, 2, 3, 4] { State.reset with pc := 0x300, host := [.loadProgram [0xAA]] }))) = true := by decide
theorem test_reset : after (fun s => s.readByte 0x050 == 0xF0 && s.readByte 0x300 == 7 && s.reg 0 == 0 && s.mem == [(0x300, 7)])
    (step (withRegs [(0, 9)] (withBytes 0x050 [0] (withBytes 0x300 [7] { State.reset with host := [.reset] })))) = true := by decide
theorem test_powerOn : after (fun s => s == State.reset)
    (step (withRegs [(0, 9)] (withBytes 0x300 [7] { State.reset with host := [.powerOn] }))) = true := by decide

/-! Witnesses: each names its obligation and meets all the hypotheses together, a clause at a time where there are several. -/

/-- A state with something in every part, its memory canonical and a report standing: the word 0x8126 at 0x300, 0xC0 at 0x400. -/
def busy : State :=
  { withBytes 0x300 [0x81, 0x26, 0x60, 0x05] (withBytes 0x400 [0xC0] (withCells [(0, 0)] State.reset)) with
    x := (Vector.replicate 16 7).set 15 9
    I := 0x400
    pc := 0x300
    dt := 3
    st := 2
    sp := 1
    kp := keypadOf 0x0010
    report := some ⟨false, true⟩
    host := [.tick (keypadOf 0x8010) 0x5A, .reset] }

theorem busy_inv : busy.Inv := by
  refine ⟨by decide, ?_⟩
  intro r h
  cases h
  exact ⟨rfl, rfl⟩

/-- `busy` as a tick hands it to `exec`: the old report, said of another `fc`, still stands, so `Inv` fails and memory alone is canonical. -/
def begun : State := { busy.beginTick (keypadOf 0) 0 with report := some ⟨true, true⟩ }

theorem begun_not_inv : ¬ begun.Inv := fun h => Bool.noConfusion (h.2 _ rfl).1

/-- Memory is canonical wherever a witness takes it from `busy`. -/
theorem wf_of_busy {s : State} (hm : s.mem = busy.mem) (hc : s.cfg = busy.cfg) : Memory.wf s.cfg s.mem := by rw [hm, hc]; exact busy_inv.1

/-- A state whose next transaction is a tick has a next state. -/
theorem step_of_tick {s s0 : State} {keypad : Keypad} {rnd : Byte} (h : s.nextOp = (.tick keypad rnd, s0)) : ∃ t, step s = .next t := by
  obtain ⟨t, -, ht⟩ := tick_eq keypad rnd s0
  exact ⟨_, by rw [step, h]; exact ht⟩

theorem witness_StepKeepsInvariant : ∃ s t : State, s.Inv ∧ step s = .next t :=
  ⟨busy, _, busy_inv, (step_of_tick rfl).choose_spec⟩
theorem witness_StepKeepsMarkersAndParameters : ∃ s t c, step s = .next t ∧ s.notes.has c = true :=
  ⟨(busy.note .oobRead), _, .oobRead, (step_of_tick rfl).choose_spec, rfl⟩
theorem witness_DecodeInvertsEncode : Instr.WellFormed (.drw 15 0 15) ∧ Instr.WellFormed (.drw 0 15 0) ∧ Instr.WellFormed (.shl 1 15) := by decide
theorem witness_EncodeInvertsDecode : decodeWord 0x8126 = some (.shr 1 2) ∧ decodeWord 0xDFFF = some (.drw 15 15 15) := by decide
theorem witness_NoWordSelectsTwoRows : ∃ (w : Word) (j k : Nat) (r q : Row), opcodeTable[j]? = some r ∧ opcodeTable[k]? = some q ∧
    r.selects w = true ∧ q.selects w = true := ⟨0xF10A, 33, 33, _, _, rfl, rfl, by decide, by decide⟩
theorem witness_NextTransactionIsHeadOfQueue : (∃ (s : State) (op : HostOp) (rest : List HostOp), s.host = op :: rest) ∧ ∃ s : State, s.host = [] :=
  ⟨⟨busy, _, _, rfl⟩, ⟨State.reset, rfl⟩⟩
theorem witness_StepRunsDecodedInstruction : ∃ (s : State) (keypad : Keypad) (rnd : Byte) (s0 : State) (i : Instr) (rest : List Byte), s.nextOp = (.tick keypad rnd, s0) ∧
    decode [s0.readByte s0.pc.toNat, s0.readByte (s0.pc.toNat + 1)] = .ok (i, rest) ∧ i.WellFormed :=
  ⟨busy, _, _, _, .shr 1 2, [], rfl, by decide, rfl⟩
theorem witness_UnrecognisedWordIsNoOp : ∃ (s : State) (keypad : Keypad) (rnd : Byte) (s0 : State), s.nextOp = (.tick keypad rnd, s0) ∧
    decodeWord (s0.readByte s0.pc.toNat ++ s0.readByte (s0.pc.toNat + 1)) = none :=
  ⟨{ busy with pc := 0x500 }, _, _, _, rfl, by decide⟩
theorem witness_FetchOutsideMemoryIsNoOp : (∃ s : State, s.pc = 0xFFF) ∧
    (∃ (s : State) (keypad : Keypad) (rnd : Byte) (s0 : State), s.nextOp = (.tick keypad rnd, s0) ∧ s0.pc = 0x1000 ∧ 0x1000 ≤ s0.pc.toNat) ∧
    ∃ (s : State) (keypad : Keypad) (rnd : Byte) (s0 : State), s.nextOp = (.tick keypad rnd, s0) ∧ s0.pc = 0xFFFF ∧ 0x1000 ≤ s0.pc.toNat :=
  ⟨⟨{ busy with pc := 0xFFF }, rfl⟩, ⟨{ busy with pc := 0x1000 }, _, _, _, rfl, rfl, by decide⟩, ⟨{ busy with pc := 0xFFFF }, _, _, _, rfl, rfl, by decide⟩⟩
theorem witness_EveryTickCountsTimersDown : ∃ (s : State) (keypad : Keypad) (rnd : Byte) (s0 t : State), s.nextOp = (.tick keypad rnd, s0) ∧ step s = .next t ∧ s0.dt = 3 ∧ s0.st = 2 ∧
    (∀ x, decodeWord s0.fetchWord ≠ some (.ldDtVx x)) ∧ ∀ x, decodeWord s0.fetchWord ≠ some (.ldStVx x) :=
  ⟨busy, _, _, _, _, rfl, (step_of_tick rfl).choose_spec, rfl, rfl, by decide, by decide⟩
theorem witness_FrameChangedReportsClearOrDraw : ∃ (s : State) (keypad : Keypad) (rnd : Byte) (s0 t : State), s.nextOp = (.tick keypad rnd, s0) ∧ step s = .next t ∧
    decodeWord s0.fetchWord = some (.drw 1 2 0) :=
  ⟨withBytes 0x300 [0xD1, 0x20] busy, _, _, _, _, rfl, (step_of_tick rfl).choose_spec, by decide⟩
theorem witness_SoundActiveReportsSoundTimer : ∃ (s : State) (keypad : Keypad) (rnd : Byte) (s0 t : State) (x : Reg), s.nextOp = (.tick keypad rnd, s0) ∧ step s = .next t ∧
    decodeWord s0.fetchWord = some (.ldStVx x) :=
  ⟨withBytes 0x300 [0xF1, 0x18] busy, _, _, _, _, 1, rfl, (step_of_tick rfl).choose_spec, by decide⟩
theorem witness_KeyWaitHoldsUntilKeyPressed :
    (∃ (s : State) (keypad : Keypad) (rnd : Byte) (s0 : State) (x : Reg), s.nextOp = (.tick keypad rnd, s0) ∧ decodeWord s0.fetchWord = some (.ldVxK x) ∧ ∀ k : Key, keypad[k] = false) ∧
    ∃ (s : State) (keypad : Keypad) (rnd : Byte) (s0 : State) (x : Reg), s.nextOp = (.tick keypad rnd, s0) ∧ decodeWord s0.fetchWord = some (.ldVxK x) ∧
      keypad[(15 : Key)] = true ∧ ∀ j : Key, j < 15 → keypad[j] = false :=
  ⟨⟨{ withBytes 0x300 [0xF1, 0x0A] busy with host := [.tick (keypadOf 0) 0] }, _, _, _, 1, rfl, by decide, by decide⟩,
    ⟨{ withBytes 0x300 [0xF1, 0x0A] busy with host := [.tick (keypadOf 0x8000) 0] }, _, _, _, 1, rfl, by decide, by decide, by decide⟩⟩
theorem witness_RandomByteAffectsOnlyRnd : ∃ s : State, ∀ x nn, decodeWord s.fetchWord ≠ some (.rnd x nn) := by
  refine ⟨busy, ?_⟩
  have h : decodeWord busy.fetchWord = some (.shr 1 2) := by decide
  simp [h]
theorem witness_PlacedWordIsRunNext : ∃ (s : State) (w : Nat) (i : Instr), Memory.wf s.cfg s.mem ∧ decodeTableWord 16 w = some i :=
  ⟨busy, 0x6105, .ldByte 1 5, wf_of_busy rfl rfl, by decide⟩
theorem witness_ByteReadFollowsBoundsRule : (∃ a : Nat, a ≤ 0xFFF ∧ busy.readByte a = 0xC0) ∧ ∃ a : Nat, a = 0x1000 ∧ 0xFFF < a ∧ busy.readByte a = 0 :=
  ⟨⟨0x400, by decide, by decide⟩, ⟨0x1000, rfl, by decide, by decide⟩⟩
theorem witness_StoredWordIsFetched : ∃ (x j k : Reg) (s t : State) (p : Word), Memory.wf s.cfg s.mem ∧ exec (.storeRegs x) s = .next t ∧ k.val = j.val + 1 ∧
    k ≤ x ∧ p.toNat = s.I.toNat + j.val ∧ p.toNat + 1 ≤ 0xFFF :=
  ⟨15, 14, 15, begun, _, 0x40E, wf_of_busy rfl rfl, rfl, rfl, by decide, by decide, by decide⟩
theorem witness_RetPopsReturnAddress : (∃ (s : State) (j : Fin 16), s.sp.val = j.val + 1 ∧ j = 0) ∧
    (∃ (s : State) (j : Fin 16), s.sp.val = j.val + 1 ∧ j = 15) ∧ ∃ s : State, s.sp.val = 0 :=
  ⟨⟨busy, 0, rfl, rfl⟩, ⟨{ busy with sp := 16 }, 15, rfl, rfl⟩, ⟨State.reset, rfl⟩⟩
theorem witness_CallPushesReturnAddress : (∃ (s : State) (j : Fin 16), s.sp.val = j.val ∧ j = 0) ∧
    (∃ (s : State) (j : Fin 16), s.sp.val = j.val ∧ j = 15) ∧ ∃ s : State, s.sp.val = 16 :=
  ⟨⟨State.reset, 0, rfl, rfl⟩, ⟨{ busy with sp := 15 }, 15, rfl, rfl⟩, ⟨{ busy with sp := 16 }, rfl⟩⟩
theorem witness_CallThenReturnComesBack : ∃ (nnn : Addr) (s t u : State), s.sp.val < 16 ∧ exec (.call nnn) s = .next t ∧ u.stack = t.stack ∧ u.sp = t.sp :=
  ⟨0xABC, { busy with sp := 15 }, _, _, by decide, rfl, rfl, rfl⟩
theorem witness_KeySkipsReadLatch : (∃ (x : Reg) (s : State) (k : Key), k.val = (s.reg x).toNat % 16 ∧ (s.reg x).toNat = 15) ∧
    ∃ (x : Reg) (s : State) (k : Key), k.val = (s.reg x).toNat % 16 ∧ (s.reg x).toNat = 16 :=
  ⟨⟨0, withRegs [(0, 15)] busy, 15, by decide, by decide⟩, ⟨0, withRegs [(0, 16)] busy, 0, by decide, by decide⟩⟩
theorem witness_OnlyListedInstructionsLeaveSequence : (∃ i s t, exec i s = .next t ∧ t.pc = s.pc + 4) ∧ (∃ i s t, exec i s = .next t ∧ t.pc = s.pc) ∧
    ∃ i s t, exec i s = .next t ∧ t.pc = s.pc + 2 :=
  ⟨⟨.seReg 1 2, busy, _, rfl, by decide⟩, ⟨.ldVxK 1, { busy with kp := keypadOf 0 }, _, rfl, by decide⟩, ⟨.ldI 5, busy, _, rfl, by decide⟩⟩
theorem witness_ResetHoldsPowerOnValues : ∃ a b : Nat, a < 0x050 ∧ a = 0x04F ∧ 0x09F < b ∧ b = 0x0A0 := ⟨0x04F, 0x0A0, by decide, rfl, by decide, rfl⟩
theorem witness_LoadsCopyAndImmediateAdd : (15 : Reg) ≠ 0 := by decide
theorem witness_LogicIsBitwise : (15 : Reg) ≠ 14 := by decide
theorem witness_RandomByteIsMasked : (0 : Reg) ≠ 15 := by decide
theorem witness_TimerMoves : (1 : Reg) ≠ 0 := by decide
theorem witness_SubtractionsSetStrictFlagLast : (0 : Reg) ≠ 15 ∧ (14 : Reg) ≠ 0 ∧ (14 : Reg) ≠ 15 := by decide
theorem witness_ShiftsMoveBitIntoFlag : (14 : Reg) ≠ 15 ∧ (0 : Reg) ≠ 14 ∧ (0 : Reg) ≠ 15 := by decide
theorem witness_AddSetsCarryLast : (0 : Reg) ≠ 15 ∧ (14 : Reg) ≠ 0 ∧ (14 : Reg) ≠ 15 := by decide
theorem witness_OnlyListedInstructionsWriteFlagRegister : (∃ i s t, exec i s = .next t ∧ t.reg 15 ≠ s.reg 15) ∧ ∃ x y s t, exec (.addReg x y) s = .next t :=
  ⟨⟨.ldByte 15 3, busy, _, rfl, by decide⟩, ⟨15, 1, busy, _, rfl⟩⟩
theorem witness_IndexedJumpForBothBases : (∃ s : State, s.cfg.jp0Base = .index) ∧ (∃ s : State, s.cfg.jp0Base = .operand) ∧
    ∃ (s : State) (nnn : Addr), s.I.toNat = nnn.toNat :=
  ⟨⟨busy, rfl⟩, ⟨{ busy with cfg := { standardConfig with jp0Base := .operand } }, rfl⟩, ⟨busy, 0x400, by decide⟩⟩
theorem witness_AccessTableWrites : (∃ i s t, exec i s = .next t ∧ t.I ≠ s.I) ∧ (∃ i s t, exec i s = .next t ∧ t.sp ≠ s.sp) ∧
    (∃ i s t, exec i s = .next t ∧ t.dt ≠ s.dt) ∧ (∃ i s t, exec i s = .next t ∧ t.st ≠ s.st) ∧ (∃ i s t, exec i s = .next t ∧ t.fc ≠ s.fc) ∧
    ∃ i s t, exec i s = .next t ∧ t.mem ≠ s.mem :=
  ⟨⟨.ldI 5, busy, _, rfl, by decide⟩, ⟨.ret, busy, _, rfl, by decide⟩, ⟨.ldDtVx 1, busy, _, rfl, by decide⟩, ⟨.ldStVx 1, busy, _, rfl, by decide⟩,
    ⟨.cls, busy, _, rfl, by decide⟩, ⟨.storeRegs 0, busy, _, rfl, by decide⟩⟩
theorem witness_LegalDomainIsLeftOnlyWhereMarked : (∃ i s t, s.inDomain ∧ exec i s = .next t ∧ ¬ t.inDomain) ∧
    ∃ i s t, s.inDomain ∧ exec i s = .next t ∧ t.inDomain :=
  ⟨⟨.call 5, { busy with sp := 16 }, _, ⟨rfl, rfl, rfl⟩, rfl, by unfold State.inDomain; decide⟩, ⟨.call 5, busy, _, ⟨rfl, rfl, rfl⟩, rfl, ⟨rfl, rfl, rfl⟩⟩⟩
theorem witness_DrawXorsSpriteIntoFrame : Instr.WellFormed (.drw 1 2 0) ∧ Instr.WellFormed (.drw 1 2 15) ∧
    (∃ (s : State) (r : Fin 32) (c : Fin 64), s.fb[r][c] = true ∧ s.spritePixel 0 0 1 r c = true) ∧
    ∃ s : State, ¬ ∃ (r : Fin 32) (c : Fin 64), s.fb[r][c] = true ∧ s.spritePixel 0 0 0 r c = true :=
  ⟨rfl, rfl, ⟨withRegs [(0, 0)] busy, 0, 0, by decide, by decide⟩, ⟨busy, by simp [State.spritePixel]⟩⟩
theorem witness_DrawTwiceRestoresFrame : (∃ x y n s t, Instr.WellFormed (.drw x y n) ∧ exec (.drw x y n) s = .next t ∧
      (t.reg x).toNat % 64 = (s.reg x).toNat % 64 ∧ (t.reg y).toNat % 32 = (s.reg y).toNat % 32 ∧ n = 15) ∧
    ∃ x y n s t, Instr.WellFormed (.drw x y n) ∧ exec (.drw x y n) s = .next t ∧
      (t.reg x).toNat % 64 = (s.reg x).toNat % 64 ∧ (t.reg y).toNat % 32 = (s.reg y).toNat % 32 ∧ x = 15 :=
  ⟨⟨1, 2, 15, busy, _, rfl, rfl, by decide, by decide, rfl⟩, ⟨15, 1, 0, withRegs [(15, 0)] busy, _, rfl, rfl, by decide, by decide, rfl⟩⟩
theorem witness_FrameViewIsRowMajor : (∃ (r : Fin 32) (c : Fin 64) (k : Fin 2048), k.val = 64 * r.val + c.val ∧ k = 0) ∧
    ∃ (r : Fin 32) (c : Fin 64) (k : Fin 2048), k.val = 64 * r.val + c.val ∧ k = 2047 := ⟨⟨0, 0, 0, rfl, rfl⟩, ⟨31, 63, 2047, rfl, rfl⟩⟩
theorem witness_BcdStoresThreeDigits : (∃ s : State, Memory.wf s.cfg s.mem ∧ s.I.toNat + 2 = 0xFFF) ∧ (∃ s : State, Memory.wf s.cfg s.mem ∧ s.I.toNat + 1 = 0xFFF) ∧
    (∃ s : State, Memory.wf s.cfg s.mem ∧ s.I.toNat = 0xFFF) ∧ ∃ (s : State) (a : Nat), Memory.wf s.cfg s.mem ∧ s.I.toNat = 0x1000 ∧ a < s.I.toNat :=
  ⟨⟨{ begun with I := 0xFFD }, wf_of_busy rfl rfl, rfl⟩, ⟨{ begun with I := 0xFFE }, wf_of_busy rfl rfl, rfl⟩,
    ⟨{ begun with I := 0xFFF }, wf_of_busy rfl rfl, rfl⟩, ⟨{ begun with I := 0x1000 }, 0xFFF, wf_of_busy rfl rfl, rfl, by decide⟩⟩
theorem witness_BlockStoreWritesRegisters : (∃ (x r : Reg) (s : State), Memory.wf s.cfg s.mem ∧ r ≤ x ∧ r = x ∧ s.I.toNat + r.val = 0xFFF) ∧
    ∃ (x : Reg) (s : State) (a : Nat), Memory.wf s.cfg s.mem ∧ s.I.toNat + x.val < a ∧ a = 0x400 + 16 :=
  ⟨⟨15, 15, { begun with I := 0xFF0 }, wf_of_busy rfl rfl, by decide, rfl, rfl⟩, ⟨15, begun, 0x410, wf_of_busy rfl rfl, by decide, rfl⟩⟩
theorem witness_BlockLoadReadsRegisters : (∃ x q : Reg, q ≤ x ∧ q = x) ∧ ∃ x q : Reg, x < q ∧ q = 15 := ⟨⟨15, 15, by decide, rfl⟩, ⟨14, 15, by decide, rfl⟩⟩
theorem witness_BlockStoreLoadRoundTrip : ∃ (x : Reg) (s t u : State), Memory.wf s.cfg s.mem ∧ s.I.toNat + x.val ≤ 0xFFF ∧ exec (.storeRegs x) s = .next t ∧
    u.mem = t.mem ∧ u.cfg = t.cfg ∧ u.I = t.I ∧ u.x ≠ t.x :=
  ⟨15, { begun with I := 0xFF0 }, _, { State.reset with mem := _, I := 0xFF0 }, wf_of_busy rfl rfl, by decide, rfl, rfl, rfl, rfl, by decide⟩
theorem witness_KeyWaitTakesLowestKey : (∃ (s : State) (k : Key), s.kp[k] = true ∧ (∀ j : Key, j < k → s.kp[j] = false) ∧ k = 15) ∧
    ∃ s : State, ∀ k : Key, s.kp[k] = false :=
  ⟨⟨{ busy with kp := keypadOf 0x8000 }, 15, by decide, by decide, rfl⟩, ⟨State.reset, by decide⟩⟩
theorem witness_ResetClearsAllButMemory : ∃ s s0 : State, Memory.wf s.cfg s.mem ∧ s.nextOp = (.reset, s0) :=
  ⟨{ busy with host := [.reset] }, _, wf_of_busy rfl rfl, rfl⟩
theorem witness_PowerOnInstallsInitialState : (∃ s s0 : State, s.nextOp = (.powerOn, s0) ∧ s0.cfg.memInit = []) ∧
    ∃ (s s0 : State) (a : Nat), s.nextOp = (.powerOn, s0) ∧ a ≤ 0xFFF ∧ 0x09F < a ∧ a = 0x0A0 ∧ s0.cfg.memInit.lookup a = some 7 :=
  ⟨⟨{ busy with host := [.powerOn] }, _, rfl, rfl⟩,
    ⟨{ busy with host := [.powerOn], cfg := { standardConfig with memInit := [(0x0A0, 7), (0x0A0, 8)] } }, _, 0x0A0, rfl, by decide, by decide, rfl, rfl⟩⟩
theorem witness_LoadProgramCopiesImage : (∃ (s s0 : State) (bytes : List Byte), Memory.wf s.cfg s.mem ∧ s.nextOp = (.loadProgram bytes, s0) ∧ bytes.length = 3584) ∧
    ∃ (s s0 : State) (bytes : List Byte), Memory.wf s.cfg s.mem ∧ s.nextOp = (.loadProgram bytes, s0) ∧ 3584 < bytes.length ∧ bytes.length = 3585 :=
  ⟨⟨{ busy with host := [.loadProgram (List.replicate 3584 1)] }, _, _, wf_of_busy rfl rfl, rfl, List.length_replicate ..⟩,
    ⟨{ busy with host := [.loadProgram (List.replicate 3585 1)] }, _, _, wf_of_busy rfl rfl, rfl,
      by rw [List.length_replicate]; decide, List.length_replicate ..⟩⟩
theorem witness_LoadedProgramIsFetchedFirst : ∃ (s s0 : State) (hi lo : Byte) (rest : List Byte), Memory.wf s.cfg s.mem ∧ s.nextOp = (.loadProgram (hi :: lo :: rest), s0) :=
  ⟨{ busy with host := [.loadProgram [0x61, 0x05]] }, _, _, _, _, wf_of_busy rfl rfl, rfl⟩

end Sys2Proof.Machine
end

section
/-! Proofs about the whole step: the sticky markers of R221 only grow, and the parameters of R9 never change. -/
namespace Sys2Proof.Machine

/-! Sets of markers, ordered by inclusion. -/

/-- Every marker set in `n` is set in `m`. -/
def Notes.Within (n m : Notes) : Prop := ∀ c, n.has c = true → m.has c = true

@[simp] theorem Notes.within_refl (n : Notes) : n.Within n := fun _ h => h

theorem Notes.Within.trans {n m k : Notes} (h : n.Within m) (h' : m.Within k) : n.Within k :=
  fun c hc => h' c (h c hc)

@[simp] theorem Notes.within_mark (n : Notes) (c : Condition) : n.Within (n.mark c) := by
  intro d hd
  rw [has_mark, hd, Bool.true_or]

/-- The form in which the laws of the operations give the notes: one marker, under the condition that calls for it. -/
@[simp] theorem Notes.within_ite_mark (p : Prop) [Decidable p] (n : Notes) (c : Condition) :
    n.Within (if p then n.mark c else n) := by
  split
  · exact n.within_mark c
  · exact n.within_refl

/-! Instructions, words and transactions. -/

/-- Eight instructions can note a condition, each at most one; the others leave the markers alone. -/
theorem exec_notes_within {i : Instr} {s t : State} (h : exec i s = .next t) : s.notes.Within t.notes := by
  cases i <;> obtain rfl := complete_inv h
  case ret => simp [popReturn_notes]
  case call => simp [pushReturn_notes]
  case skp => simp [noteKey_notes]
  case sknp => simp [noteKey_notes]
  case drw => simp [noteReads_notes]
  case ldB => simp [writeBytes_notes]
  case storeRegs => simp [writeBytes_notes]
  case loadRegs => simp [loadBlock_notes]
  all_goals simp

theorem exec_cfg {i : Instr} {s t : State} (h : exec i s = .next t) : t.cfg = s.cfg := by
  obtain ⟨_, _, _, _, _, hcfg⟩ := exec_boundary h
  exact hcfg

theorem runWord_notes_within {w : Word} {s t : State} (h : runWord w s = .next t) : s.notes.Within t.notes := by
  rcases runWord_cases h with ⟨i, -, hi⟩ | ⟨-, rfl⟩
  · exact exec_notes_within hi
  · simp

theorem runWord_cfg {w : Word} {s t : State} (h : runWord w s = .next t) : t.cfg = s.cfg := by
  rcases runWord_cases h with ⟨i, -, hi⟩ | ⟨-, rfl⟩
  · exact exec_cfg hi
  · rfl

theorem loadProgram_notes_within (bytes : List Byte) (s : State) : s.notes.Within (s.loadProgram bytes).notes := by
  simp [loadProgram_eq]

theorem loadProgram_cfg (bytes : List Byte) (s : State) : (s.loadProgram bytes).cfg = s.cfg := by
  rw [loadProgram_eq]

theorem noteFetch_notes_within (s : State) : s.notes.Within s.noteFetch.notes := by
  simp [noteFetch_notes]

theorem noteFetch_cfg (s : State) : s.noteFetch.cfg = s.cfg := noteReads_cfg _ _ s

/-- The markers survive every transaction, `PowerOn` and `Reset` among them (log entry 5). -/
theorem step_notes_within {s t : State} (h : step s = .next t) : s.notes.Within t.notes := by
  rw [← nextOp_notes s]
  rcases step_cases h with ⟨-, rfl⟩ | ⟨-, rfl⟩ | ⟨bytes, -, rfl⟩ | ⟨keypad, rnd, u, -, hu, rfl⟩
  · exact Notes.within_refl _
  · exact Notes.within_refl _
  · exact loadProgram_notes_within bytes _
  · rw [endTick_notes, ← beginTick_notes keypad rnd]
    exact (noteFetch_notes_within _).trans (runWord_notes_within hu)

theorem step_cfg {s t : State} (h : step s = .next t) : t.cfg = s.cfg := by
  rw [← nextOp_cfg s]
  rcases step_cases h with ⟨-, rfl⟩ | ⟨-, rfl⟩ | ⟨bytes, -, rfl⟩ | ⟨keypad, rnd, u, -, hu, rfl⟩
  · rfl
  · rfl
  · exact loadProgram_cfg bytes _
  · rw [endTick_cfg, runWord_cfg hu, noteFetch_cfg, beginTick_cfg]

/-- Settles O5: each of the four transactions keeps the markers and the parameters. -/
theorem stepKeepsMarkersAndParameters : Obligations.StepKeepsMarkersAndParameters :=
  fun _ _ h => ⟨step_notes_within h, step_cfg h⟩

end Sys2Proof.Machine
end

section
/-! Proofs of the state family: the invariant of a step, the two outputs of a tick, which instruction can change which part, the values
at reset, and the host's two views, of its queue and of the frame buffer. -/
namespace Sys2Proof.Machine

/-! The invariant (R32, R43, R44, R50). -/

/-- Where no report stands, the invariant is about memory alone. -/
theorem inv_of_report_none {s : State} (hw : Memory.wf s.cfg s.mem) (hr : s.report = none) : s.Inv := by
  refine ⟨hw, fun r h => ?_⟩
  rw [hr] at h
  cases h

/-- The report a tick leaves is the one the invariant asks for. -/
theorem inv_endTick {s : State} (hw : Memory.wf s.cfg s.mem) : s.endTick.Inv := by
  refine ⟨hw, fun r h => ?_⟩
  cases h
  exact ⟨rfl, rfl⟩

/-- `PowerOn` needs nothing of the state before: memory lists no cell. -/
theorem powerOn_inv (s : State) : s.powerOn.Inv := inv_of_report_none rfl rfl

/-- The 80 bytes of the font table lie inside memory (R33). -/
theorem hostReset_inv {s : State} (hw : Memory.wf s.cfg s.mem) : s.hostReset.Inv :=
  inv_of_report_none (wf_writeList s.cfg.font.toList hw (by simp [fontBase, memSize])) rfl

/-- What is copied of an image ends with memory, the rest being cut off (R252). -/
theorem loadProgram_inv (bytes : List Byte) {s : State} (hw : Memory.wf s.cfg s.mem) : (s.loadProgram bytes).Inv := by
  rw [loadProgram_eq]
  refine inv_of_report_none (wf_writeList (bytes.take progMax) hw ?_) rfl
  have hlen : (bytes.take progMax).length ≤ progMax := List.length_take_le progMax bytes
  simp only [progBase, progMax, memSize] at hlen ⊢
  omega

theorem runWord_wf {w : Word} {s t : State} (hw : Memory.wf s.cfg s.mem) (h : runWord w s = .next t) : Memory.wf t.cfg t.mem := by
  rcases runWord_cases h with ⟨i, -, hi⟩ | ⟨-, rfl⟩
  · exact exec_wf hw hi
  · exact hw

/-- A fetch leaves memory as it was. -/
theorem noteFetch_wf {s : State} (hw : Memory.wf s.cfg s.mem) : Memory.wf s.noteFetch.cfg s.noteFetch.mem := by
  rwa [noteFetch_cfg, State.noteFetch, noteReads_mem]

/-- Only the memory half of the invariant is used: each transaction leaves a new report or none. -/
theorem step_inv {s t : State} (hs : s.Inv) (h : step s = .next t) : t.Inv := by
  have hw : Memory.wf s.nextOp.2.cfg s.nextOp.2.mem := by
    rw [nextOp_cfg, nextOp_mem]
    exact hs.1
  rcases step_cases h with ⟨-, rfl⟩ | ⟨-, rfl⟩ | ⟨bytes, -, rfl⟩ | ⟨keypad, rnd, u, -, hu, rfl⟩
  · exact powerOn_inv _
  · exact hostReset_inv hw
  · exact loadProgram_inv bytes hw
  · exact inv_endTick (runWord_wf (noteFetch_wf (s := s.nextOp.2.beginTick keypad rnd) hw) hu)

/-- Settles O4: each of the four transactions keeps the invariant. -/
theorem stepKeepsInvariant : Obligations.StepKeepsInvariant := fun _ _ hs h => step_inv hs h

/-- Settles O2: at reset memory lists no cell and no report stands. -/
theorem resetMeetsInvariant : Obligations.ResetMeetsInvariant := inv_of_report_none rfl rfl

/-! Which instruction can change which part: the writers of the part, or the part unchanged (R34). -/

theorem exec_I_or_loadsIndex {i : Instr} {s t : State} (h : exec i s = .next t) :
    ((∃ nnn, i = .ldI nnn) ∨ ∃ x, i = .ldF x ∨ i = .addI x) ∨ t.I = s.I := by
  cases i <;> obtain rfl := complete_inv h
  case ldI nnn => exact .inl (.inl ⟨nnn, rfl⟩)
  case ldF x => exact .inl (.inr ⟨x, .inl rfl⟩)
  case addI x => exact .inl (.inr ⟨x, .inr rfl⟩)
  all_goals exact .inr (by simp)

theorem exec_stack_or_callRet {i : Instr} {s t : State} (h : exec i s = .next t) :
    (i = .ret ∨ ∃ nnn, i = .call nnn) ∨ t.stack = s.stack ∧ t.sp = s.sp := by
  cases i <;> obtain rfl := complete_inv h
  case ret => exact .inl (.inl rfl)
  case call nnn => exact .inl (.inr ⟨nnn, rfl⟩)
  all_goals exact .inr (by simp)

theorem exec_dt_or_ldDtVx {i : Instr} {s t : State} (h : exec i s = .next t) : (∃ x, i = .ldDtVx x) ∨ t.dt = s.dt := by
  cases i <;> obtain rfl := complete_inv h
  case ldDtVx x => exact .inl ⟨x, rfl⟩
  all_goals exact .inr (by simp)

theorem exec_st_or_ldStVx {i : Instr} {s t : State} (h : exec i s = .next t) : (∃ x, i = .ldStVx x) ∨ t.st = s.st := by
  cases i <;> obtain rfl := complete_inv h
  case ldStVx x => exact .inl ⟨x, rfl⟩
  all_goals exact .inr (by simp)

/-- The two frame instructions set `fc`, whatever they do to the cells (R130, R189). -/
theorem exec_frame_or_clsDrw {i : Instr} {s t : State} (h : exec i s = .next t) :
    (i = .cls ∨ ∃ x y n, i = .drw x y n) ∧ t.fc = true ∨ t.fb = s.fb ∧ t.fc = s.fc := by
  cases i <;> obtain rfl := complete_inv h
  case cls => exact .inl ⟨.inl rfl, rfl⟩
  case drw x y n => exact .inl ⟨.inr ⟨x, y, n, rfl⟩, rfl⟩
  all_goals exact .inr (by simp)

/-- Memory by its cells and byte by byte: the parameters do not change, so the bytes follow the cells. -/
theorem exec_bytes_or_store {i : Instr} {s t : State} (h : exec i s = .next t) :
    (∃ x, i = .ldB x ∨ i = .storeRegs x) ∨ (∀ a, t.readByte a = s.readByte a) ∧ t.mem = s.mem :=
  (exec_mem_or_store h).imp_right fun hm => ⟨readByte_congr hm (exec_cfg h), hm⟩

/-- Settles O42: part by part, the writers or no change. -/
theorem accessTableWrites : Obligations.AccessTableWrites := by
  intro i s t h
  refine ⟨(exec_I_or_loadsIndex h).resolve_right, fun hne => ?_, (exec_dt_or_ldDtVx h).resolve_right,
    (exec_st_or_ldStVx h).resolve_right, fun hne => ?_, fun hne => ?_, exec_boundary h⟩
  · exact (exec_stack_or_callRet h).resolve_right (not_and_or.mpr hne)
  · exact ((exec_frame_or_clsDrw h).resolve_right (not_and_or.mpr hne)).1
  · exact (exec_bytes_or_store h).resolve_right (not_and_or.mpr (hne.imp_left not_forall.mpr))

/-! The outputs of a tick (R43, R44, R121). -/

/-- A step whose transaction is a tick runs the word at `pc` after steps 1 to 4 and samples the outputs. -/
theorem step_tick {s s0 t : State} {keypad : Keypad} {rnd : Byte} (hop : s.nextOp = (.tick keypad rnd, s0)) (h : step s = .next t) :
    ∃ u, runWord s0.fetchWord (s0.beginTick keypad rnd).noteFetch = .next u ∧ t = u.endTick := by
  obtain ⟨u, hu, ht⟩ := tick_eq keypad rnd s0
  rw [step, hop, transact, ht] at h
  cases h
  exact ⟨u, hu, rfl⟩

/-- A word run with `fc` clear sets it exactly when it is `CLS` or `DRW`; an unrecognised word leaves it clear. -/
theorem runWord_fc_iff {w : Word} {s t : State} (hs : s.fc = false) (h : runWord w s = .next t) :
    t.fc = true ↔ decodeWord w = some .cls ∨ ∃ x y n, decodeWord w = some (.drw x y n) := by
  rcases runWord_cases h with ⟨i, hd, hi⟩ | ⟨hd, rfl⟩
  · simp only [hd, Option.some.injEq]
    constructor
    · intro ht
      rcases exec_frame_or_clsDrw hi with ⟨hwriter, -⟩ | ⟨-, hfc⟩
      · exact hwriter
      · simp [hfc, hs] at ht
    · rintro (rfl | ⟨x, y, n, rfl⟩) <;> (cases hi; rfl)
  · simp [hd, hs]

@[simp] theorem noteFetch_fc (s : State) : s.noteFetch.fc = s.fc := noteReads_fc _ _ s

@[simp] theorem noteFetch_x (s : State) : s.noteFetch.x = s.x := noteReads_x _ _ s

/-- Settles O16: step 2 clears `fc`, so after the word it says whether the word was `CLS` or `DRW`. -/
theorem frameChangedReportsClearOrDraw : Obligations.FrameChangedReportsClearOrDraw := by
  intro s keypad rnd s0 t hop h
  obtain ⟨u, hu, rfl⟩ := step_tick hop h
  exact ⟨_, endTick_report u, rfl, runWord_fc_iff (by simp) hu⟩

/-- Settles O17: the report samples `st` after the instruction, and `LD ST, Vx` has put `x[X]` there. -/
theorem soundActiveReportsSoundTimer : Obligations.SoundActiveReportsSoundTimer := by
  intro s keypad rnd s0 t hop h
  obtain ⟨u, hu, rfl⟩ := step_tick hop h
  refine ⟨_, endTick_report u, rfl, fun x hd => ?_⟩
  rw [runWord_recognised hd] at hu
  obtain rfl := complete_inv hu
  have hreg : (s0.beginTick keypad rnd).noteFetch.reg x = s0.reg x := reg_congr (by simp) x
  simp [hreg]

/-! The flag register (R21). -/

/-- The six instructions that write `x[15]` implicitly. -/
def SetsFlag (i : Instr) : Prop :=
  (∃ x y, i = .addReg x y ∨ i = .subReg x y ∨ i = .subnReg x y ∨ i = .shr x y ∨ i = .shl x y) ∨ ∃ x y n, i = .drw x y n

/-- The instructions that name register 15 as their destination and are none of the six. -/
def TargetsFlagRegister (i : Instr) : Prop :=
  (∃ nn, i = .ldByte 15 nn ∨ i = .addByte 15 nn ∨ i = .rnd 15 nn) ∨
  (∃ y, i = .ldReg 15 y ∨ i = .orReg 15 y ∨ i = .andReg 15 y ∨ i = .xorReg 15 y) ∨
  i = .loadRegs 15 ∨ i = .ldVxDt 15 ∨ i = .ldVxK 15

theorem flagOf_eq_zero_or_one (b : Bool) : flagOf b = 0 ∨ flagOf b = 1 := by cases b <;> simp [flagOf]

@[simp] theorem reg_advance (d : Directive) (s : State) (r : Reg) : (s.advance d).reg r = s.reg r := rfl

/-- The flag is written last, so it stands even where the result went to the same register (R161). -/
theorem flagReg_setResultFlag (x : Reg) (v w : Byte) (s : State) : (s.setResultFlag x v w).reg 15 = w := by
  rw [reg_setResultFlag]
  exact if_pos rfl

/-- A register write changes the register it names and no other. -/
theorem eq_of_reg_setReg_ne {r q : Reg} {v : Byte} {s : State} (h : (s.setReg r v).reg q ≠ s.reg q) : r = q := by
  rw [reg_setReg] at h
  by_contra hne
  exact h (if_neg (Ne.symm hne))

/-- The key-wait changes the register it names and no other. -/
theorem eq_of_reg_takeKey_ne {x q : Reg} {s : State} (h : (s.takeKey x).reg q ≠ s.reg q) : x = q := by
  unfold State.takeKey at h
  split at h
  · exact eq_of_reg_setReg_ne h
  · exact absurd rfl h

/-- A block load reaches register 15 only when it is the last of the block. -/
theorem eq_of_reg_loadBlock_ne {x : Reg} {a : Nat} {s : State} (h : (s.loadBlock a (blockRegs x)).reg 15 ≠ s.reg 15) : x = 15 := by
  have hmem : 15 ∈ blockRegs x := by
    by_contra hout
    rw [reg_loadBlock, if_neg hout] at h
    exact h rfl
  exact le_antisymm (Fin.le_last x) ((mem_blockRegs x 15).mp hmem)

theorem exec_flagReg_value {i : Instr} {s t : State} (h : exec i s = .next t) (hi : SetsFlag i) : ∃ b, t.reg 15 = flagOf b := by
  rcases hi with ⟨x, y, rfl | rfl | rfl | rfl | rfl⟩ | ⟨x, y, n, rfl⟩ <;> obtain rfl := complete_inv h
  case inr => exact ⟨_, (reg_setReg _ _ _ _).trans (if_pos rfl)⟩
  all_goals exact ⟨_, flagReg_setResultFlag _ _ _ s⟩

theorem exec_flagReg_change {i : Instr} {s t : State} (h : exec i s = .next t) (hne : t.reg 15 ≠ s.reg 15) :
    SetsFlag i ∨ TargetsFlagRegister i := by
  cases i <;> obtain rfl := complete_inv h <;> rw [reg_advance] at hne
  case addReg x y | subReg x y | subnReg x y | shr x y | shl x y => exact .inl (.inl ⟨x, y, by simp⟩)
  case drw x y n => exact .inl (.inr ⟨x, y, n, rfl⟩)
  case loadRegs => simp [TargetsFlagRegister, eq_of_reg_loadBlock_ne hne]
  case ldVxK => simp [TargetsFlagRegister, eq_of_reg_takeKey_ne hne]
  case ldByte | addByte | rnd | ldReg | orReg | andReg | xorReg | ldVxDt => simp [TargetsFlagRegister, eq_of_reg_setReg_ne hne]
  all_goals exact absurd (reg_congr (by simp) 15) hne

/-- Settles O37: the six leave a flag, and of the others only a write that names register 15 reaches it. -/
theorem onlyListedInstructionsWriteFlagRegister : Obligations.OnlyListedInstructionsWriteFlagRegister := by
  intro i s t h
  refine ⟨fun hne => or_assoc.mp (exec_flagReg_change h hne), fun hi => ?_⟩
  obtain ⟨b, hb⟩ := exec_flagReg_value h hi
  rw [hb]
  exact flagOf_eq_zero_or_one b

/-! Reset (R38, R250). -/

/-- At reset memory lists no cell, so a byte of it is the byte of power-on. -/
theorem readByte_reset (a : Nat) : State.reset.readByte a = if a ≤ 0xFFF then powerOnByte standardConfig a else 0 := rfl

theorem readByte_reset_font (k : Fin 80) : State.reset.readByte (0x050 + k.val) = State.reset.cfg.font[k] := by
  rw [readByte_reset, if_pos (by omega)]
  exact powerOnByte_font k

/-- The default `MEM_INIT` has no entry (D23). -/
theorem readByte_reset_outside {a : Nat} (h : a < 0x050 ∨ 0x09F < a) : State.reset.readByte a = 0 := by
  rw [readByte_reset, powerOnByte_outside h]
  exact ite_self 0

/-- Settles O1: the arrays hold their zero everywhere, and memory is that of power-on. -/
theorem resetHoldsPowerOnValues : Obligations.ResetHoldsPowerOnValues :=
  ⟨fun _ => Vector.getElem_replicate _, rfl, rfl, rfl, rfl, fun _ => Vector.getElem_replicate _, rfl, cellAt_blankFrame,
    fun _ => Vector.getElem_replicate _, rfl, readByte_reset_font, fun _ => readByte_reset_outside⟩

/-! The host's queue (log entry 2) and its view of the frame buffer (R45). -/

theorem nextOp_cons {s : State} {op : HostOp} {rest : List HostOp} (h : s.host = op :: rest) :
    s.nextOp = (op, { s with host := rest }) := by
  simp [State.nextOp, h]

theorem nextOp_nil {s : State} (h : s.host = []) :
    s.nextOp = (.tick (Config.freeKeypad s.draws) (Config.freeRnd s.draws), { s with draws := s.draws + 1 }) := by
  simp [State.nextOp, h]

/-- Settles O11: the queue's two forms. -/
theorem nextTransactionIsHeadOfQueue : Obligations.NextTransactionIsHeadOfQueue :=
  fun _ => ⟨fun _ _ h => nextOp_cons h, fun h => ⟨_, _, nextOp_nil h⟩⟩

/-- Settles O46: `r` and `c` are the quotient and the remainder of the index by 64. -/
theorem frameViewIsRowMajor : Obligations.FrameViewIsRowMajor := by
  intro s r c k hk
  have hrow : Fin.ofNat 32 (k.val / 64) = r := Fin.ext (by simp only [Fin.val_ofNat]; omega)
  have hcol : Fin.ofNat 64 k.val = c := Fin.ext (by simp only [Fin.val_ofNat]; omega)
  rw [State.frameView, hrow, hcol, cellAt]

end Sys2Proof.Machine
end

section
/-! Proofs of the memory family: what a byte read and a fetch give, inside memory and beyond it (R55, R58), and that the word a store
or the host has put at an address is the word a fetch there reads (R53, R65). -/
namespace Sys2Proof.Machine

/-! A byte read and a fetch (R53, R55, R58). -/

theorem readByte_inside (s : State) {a : Nat} (h : a ≤ 0xFFF) : s.readByte a = s.mem.read s.cfg a := if_pos h

theorem noteRead_inside (s : State) {a : Nat} (h : a ≤ 0xFFF) : s.noteRead a = s := if_pos h

theorem noteRead_outside (s : State) {a : Nat} (h : 0xFFF < a) : s.noteRead a = s.note .oobRead := if_neg (Nat.not_le.mpr h)

theorem readByte_noteRead (a b : Nat) (s : State) : (s.noteRead a).readByte b = s.readByte b :=
  readByte_congr (noteRead_mem a s) (noteRead_cfg a s) b

/-- A fetch notes its two bytes one after the other. -/
theorem noteFetch_eq (s : State) : s.noteFetch = (s.noteRead s.pc.toNat).noteRead (s.pc.toNat + 1) := rfl

/-- A fetch wholly inside memory notes nothing. -/
theorem noteFetch_inside {s : State} (h : s.pc.toNat + 1 ≤ 0xFFF) : s.noteFetch = s := by
  rw [noteFetch_eq, noteRead_inside s (by omega), noteRead_inside s h]

/-- A fetch reads `pc`, `mem` and `cfg` alone. -/
theorem fetchWord_congr {s t : State} (hp : t.pc = s.pc) (hm : t.mem = s.mem) (hc : t.cfg = s.cfg) : t.fetchWord = s.fetchWord := by
  rw [State.fetchWord, State.fetchWord, hp, readByte_congr hm hc, readByte_congr hm hc]

/-- A fetch wholly beyond memory reads 0x0000. -/
theorem fetchWord_outside {s : State} (h : 0x1000 ≤ s.pc.toNat) : s.fetchWord = 0 := by
  rw [State.fetchWord, readByte_outside s (by omega), readByte_outside s (by omega)]
  rfl

/-- Settles O21: the two branches of the bounds rule, and that a note leaves memory as it was. -/
theorem byteReadFollowsBoundsRule : Obligations.ByteReadFollowsBoundsRule := fun s a =>
  ⟨fun h => ⟨readByte_inside s h, noteRead_inside s h⟩, fun h => ⟨readByte_outside s h, noteRead_outside s h⟩, rfl,
    noteFetch_eq s, fun b => readByte_noteRead a b s⟩

/-! A step whose transaction is a tick, by the word fetched (R116, R118). -/

theorem step_recognised {s s0 t : State} {keypad : Keypad} {rnd : Byte} {i : Instr} (hop : s.nextOp = (.tick keypad rnd, s0))
    (hd : decodeWord s0.fetchWord = some i) (ht : exec i (s0.beginTick keypad rnd).noteFetch = .next t) :
    step s = .next t.endTick := by
  rw [step, hop, transact, tick, fetchWord_beginTick, runWord_recognised hd, ht, finishTick_next]

theorem step_unrecognised {s s0 : State} {keypad : Keypad} {rnd : Byte} (hop : s.nextOp = (.tick keypad rnd, s0))
    (hd : decodeWord s0.fetchWord = none) :
    step s = .next (((s0.beginTick keypad rnd).noteFetch.note .unrecognisedWord).advance .next).endTick := by
  rw [step, hop, transact, tick, fetchWord_beginTick, runWord_unrecognised hd, execUnrecognised, complete_eq, finishTick_next]

/-- The frame of a tick that executes nothing. -/
theorem unrecognisedTick_keepsAllBut (keypad : Keypad) (rnd : Byte) (s : State) :
    KeepsAllBut [.kp, .fc, .dt, .st, .rnd, .pc, .report, .notes] s
      (((s.beginTick keypad rnd).noteFetch.note .unrecognisedWord).advance .next).endTick := by
  intro p hp
  cases p
  case kp | fc | dt | st | rnd | pc | report | notes => simp at hp
  case mem =>
    have hmem : (s.beginTick keypad rnd).noteFetch.mem = s.mem := noteReads_mem _ _ _
    exact ⟨hmem, readByte_congr hmem (noteFetch_cfg _)⟩
  all_goals simp [Part.same, State.noteFetch]

/-- Settles O14: beyond memory the bytes fetched are 0, and 0x0000 is an unrecognised word. -/
theorem fetchOutsideMemoryIsNoOp : Obligations.FetchOutsideMemoryIsNoOp := by
  refine ⟨fun s hpc => ?_, fun s keypad rnd s0 hop hpc => ?_⟩
  · have hlow : s.readByte (0xFFF + 1) = 0 := readByte_outside s (by decide)
    rw [State.fetchWord, hpc, ← hlow]
    rfl
  · have hw : s0.fetchWord = 0 := fetchWord_outside hpc
    have hd : decodeWord s0.fetchWord = none := by rw [hw]; decide
    refine ⟨hw, _, step_unrecognised hop hd, ?_, ?_, ?_, unrecognisedTick_keepsAllBut keypad rnd s0⟩
    · simp [State.noteFetch, Directive.apply]
    · simp [noteFetch_notes, show 0xFFF ≤ s0.pc.toNat by omega]
    · simp

/-! A word placed by the host (R53; log entry 7). -/

/-- The first two bytes of a list put at `pc` are the word fetched there. -/
theorem fetchWord_writeList {s : State} {hi lo : Byte} {rest : List Byte} {m : Memory} (hm : Memory.wf s.cfg m)
    (hfit : s.pc.toNat + (hi :: lo :: rest).length ≤ memSize)
    (hmem : s.mem = Memory.writeList s.cfg s.pc.toNat (hi :: lo :: rest) m) : s.fetchWord = hi ++ lo := by
  have hread : ∀ a, s.mem.read s.cfg a =
      if s.pc.toNat ≤ a then (hi :: lo :: rest)[a - s.pc.toNat]?.getD (m.read s.cfg a) else m.read s.cfg a := by
    intro a
    rw [hmem]
    exact read_writeList _ hm hfit
  simp only [List.length_cons, memSize] at hfit
  rw [State.fetchWord, readByte_inside s (by omega), readByte_inside s (by omega), hread, hread]
  simp

/-- The host places a word only where both its bytes lie inside memory. -/
theorem withFetchWord_pc_inside (s : State) (nbits w : Nat) : (s.withFetchWord nbits w).pc.toNat + 1 ≤ 0xFFF := by
  change (if s.pc.toNat + 1 ≤ 0xFFF then s.pc else 0x200).toNat + 1 ≤ 0xFFF
  split
  · assumption
  · decide

/-- The placed bytes, joined high byte first, are the word again. -/
theorem fetchWord_withFetchWord {s : State} (hm : Memory.wf s.cfg s.mem) (nbits w : Nat) :
    (s.withFetchWord nbits w).fetchWord = BitVec.ofNat 16 (w % 2 ^ nbits) := by
  have hpc := withFetchWord_pc_inside s nbits w
  have hfit : (s.withFetchWord nbits w).pc.toNat + 2 ≤ memSize := by simp only [memSize]; omega
  have hfetch : (s.withFetchWord nbits w).fetchWord = _ ++ _ := fetchWord_writeList (rest := []) hm hfit rfl
  exact hfetch.trans BitVec.extractLsb'_append_extractLsb'

/-- Where the queue does not begin with a tick, a tick has been put before it, and an empty queue stands for one. -/
theorem withFetchWord_nextOp (s : State) (nbits w : Nat) :
    ∃ keypad rnd, (s.withFetchWord nbits w).nextOp = (.tick keypad rnd, (s.withFetchWord nbits w).nextOp.2) := by
  rcases hh : s.host with _ | ⟨op, rest⟩
  · exact ⟨Config.freeKeypad s.draws, Config.freeRnd s.draws, by simp [State.nextOp, State.withFetchWord, hh]⟩
  · cases op
    case tick keypad rnd => exact ⟨keypad, rnd, by simp [State.nextOp, State.withFetchWord, hh]⟩
    all_goals exact ⟨Vector.replicate 16 false, 0, by simp [State.nextOp, State.withFetchWord, hh]⟩

@[simp] theorem nextOp_pc (s : State) : s.nextOp.2.pc = s.pc := by unfold State.nextOp; split <;> rfl

/-- Taking the transaction from the queue leaves the word the tick will fetch. -/
theorem fetchWord_nextOp (s : State) : s.nextOp.2.fetchWord = s.fetchWord :=
  fetchWord_congr (nextOp_pc s) (nextOp_mem s) (nextOp_cfg s)

/-- Settles O20: the placed word lies inside memory, so its fetch gives it back and notes nothing. -/
theorem placedWordIsRunNext : Obligations.PlacedWordIsRunNext := by
  intro s w i hm hd
  obtain ⟨keypad, rnd, hop⟩ := withFetchWord_nextOp s 16 w
  have hword : BitVec.ofNat 16 (w % 2 ^ 16) = BitVec.ofNat 16 w := BitVec.eq_of_toNat_eq (by simp)
  obtain ⟨t, ht⟩ := exec_next i ((s.withFetchWord 16 w).nextOp.2.beginTick keypad rnd)
  refine ⟨keypad, rnd, _, t, hop, ht, step_recognised (i := i) hop ?_ ?_⟩
  · rw [fetchWord_nextOp, fetchWord_withFetchWord hm, hword, ← decodeTableWord_eq, hd]
  · rwa [noteFetch_inside (by rw [beginTick_pc, nextOp_pc]; exact withFetchWord_pc_inside s 16 w)]

/-! A word stored by `LD [I], Vx` (R65, R196). -/

/-- The block store puts each register of the block at its own offset from `I`. -/
theorem readByte_storeRegs {x r : Reg} {s t : State} (hm : Memory.wf s.cfg s.mem) (h : exec (.storeRegs x) s = .next t)
    (hr : r ≤ x) (ha : s.I.toNat + r.val ≤ 0xFFF) : t.readByte (s.I.toNat + r.val) = s.reg r := by
  obtain rfl := complete_inv h
  have hreg : (blockRegs x)[r.val]? = some r := by
    rw [getElem?_blockRegs, if_pos (Fin.le_def.mp hr), Fin.ofNat_val_eq_self]
  change (s.writeBytes s.I.toNat ((blockRegs x).map s.reg)).readByte (s.I.toNat + r.val) = s.reg r
  rw [readByte_writeBytes _ hm, if_pos ⟨Nat.le_add_right _ _, ha⟩, Nat.add_sub_cancel_left, List.getElem?_map, hreg]
  rfl

/-- Settles O22: the fetch at the first register's address reads the two stored bytes. -/
theorem storedWordIsFetched : Obligations.StoredWordIsFetched := by
  intro x j k s t p hm h hk hkx hp hfit
  have hjx : j ≤ x := by
    rw [Fin.le_def] at hkx ⊢
    omega
  have hlow : p.toNat + 1 = s.I.toNat + k.val := by omega
  change t.readByte p.toNat ++ t.readByte (p.toNat + 1) = s.reg j ++ s.reg k
  rw [hlow, hp, readByte_storeRegs hm h hjx (by omega), readByte_storeRegs hm h hkx (by omega)]

end Sys2Proof.Machine
end

section
/-! Proofs of the encoding family (30_encoding.md). Each direction of the round trip goes through the row a word selects: the rows are
disjoint, so the selected row is the one `decodeWord` finds, and a row's pattern with a word's operand bits is the word again. -/
namespace Sys2Proof.Laws.RowWord

/-- The family `RowWord` as one statement over all instructions. -/
theorem statement_all : ∀ i, Statement i
  | .cls => cls
  | .ret => ret
  | .jp nnn => jp nnn
  | .call nnn => call nnn
  | .seByte x nn => seByte x nn
  | .sneByte x nn => sneByte x nn
  | .seReg x y => seReg x y
  | .sneReg x y => sneReg x y
  | .skp x => skp x
  | .sknp x => sknp x
  | .ldByte x nn => ldByte x nn
  | .addByte x nn => addByte x nn
  | .ldReg x y => ldReg x y
  | .orReg x y => orReg x y
  | .andReg x y => andReg x y
  | .xorReg x y => xorReg x y
  | .addReg x y => addReg x y
  | .subReg x y => subReg x y
  | .shr x y => shr x y
  | .subnReg x y => subnReg x y
  | .shl x y => shl x y
  | .ldI nnn => ldI nnn
  | .jpV0 nnn => jpV0 nnn
  | .ldF x => ldF x
  | .addI x => addI x
  | .rnd x nn => rnd x nn
  | .drw x y n => drw x y n
  | .ldB x => ldB x
  | .storeRegs x => storeRegs x
  | .loadRegs x => loadRegs x
  | .ldVxDt x => ldVxDt x
  | .ldDtVx x => ldDtVx x
  | .ldStVx x => ldStVx x
  | .ldVxK x => ldVxK x

end Sys2Proof.Laws.RowWord

namespace Sys2Proof

/-! The rows are disjoint (R84). -/

/-- Two rows that one word selects have the same pattern on the bits that both of them fix. -/
theorem pattern_and_mask_eq_of_selects {r q : Row} {w : Word} (hr : r.selects w = true) (hq : q.selects w = true) :
    r.pattern &&& q.mask = q.pattern &&& r.mask := by
  rw [← beq_iff_eq.mp hr, ← beq_iff_eq.mp hq, BitVec.and_assoc, BitVec.and_assoc, BitVec.and_comm r.mask]

/-- Of two different rows, one asks for a bit that the other refuses. -/
theorem opcodeTable_pairwise : opcodeTable.Pairwise fun r q => r.pattern &&& q.mask ≠ q.pattern &&& r.mask := by decide

/-- An earlier and a later row are never both selected. -/
theorem not_selects_later_row {w : Word} {j k : Nat} {r q : Row} (hj : opcodeTable[j]? = some r) (hk : opcodeTable[k]? = some q)
    (hr : r.selects w = true) (hq : q.selects w = true) : ¬ j < k := by
  intro hlt
  obtain ⟨hjlen, rfl⟩ := List.getElem?_eq_some_iff.mp hj
  obtain ⟨hklen, rfl⟩ := List.getElem?_eq_some_iff.mp hk
  exact List.pairwise_iff_getElem.mp opcodeTable_pairwise j k hjlen hklen hlt (pattern_and_mask_eq_of_selects hr hq)

theorem row_index_unique {w : Word} {j k : Nat} {r q : Row} (hj : opcodeTable[j]? = some r) (hk : opcodeTable[k]? = some q)
    (hr : r.selects w = true) (hq : q.selects w = true) : j = k :=
  le_antisymm (not_lt.mp (not_selects_later_row hk hj hq hr)) (not_lt.mp (not_selects_later_row hj hk hr hq))

/-- Settles O8: two rows that share a word would agree on their common mask, and no two rows of the table do. -/
theorem noWordSelectsTwoRows : Obligations.NoWordSelectsTwoRows :=
  ⟨rfl, fun _ _ _ _ _ => row_index_unique⟩

/-! What `decodeWord` answers, by rows (R84, R87). -/

theorem decodeWord_eq_some {w : Word} {i : Instr} (h : decodeWord w = some i) :
    ∃ r ∈ opcodeTable, r.selects w = true ∧ r.build (fields w) = i := by
  obtain ⟨r, hfind, hbuild⟩ := Option.map_eq_some_iff.mp h
  have hsel := List.find?_some hfind
  exact ⟨r, List.mem_of_find?_eq_some hfind, hsel, hbuild⟩

theorem decodeWord_eq_none {w : Word} : decodeWord w = none ↔ ∀ r ∈ opcodeTable, ¬ r.selects w = true := by
  rw [decodeWord, Option.map_eq_none_iff, List.find?_eq_none]

/-- A word that selects a row decodes by that row: the row found first is the only one. -/
theorem decodeWord_of_selects {w : Word} {k : Nat} {r : Row} (hk : opcodeTable[k]? = some r) (hr : r.selects w = true) :
    decodeWord w = some (r.build (fields w)) := by
  cases hd : decodeWord w with
  | none => exact absurd hr (decodeWord_eq_none.mp hd r (List.mem_of_getElem? hk))
  | some i =>
    obtain ⟨q, hmem, hq, rfl⟩ := decodeWord_eq_some hd
    obtain ⟨j, hj⟩ := List.getElem?_of_mem hmem
    obtain rfl := row_index_unique hj hk hq hr
    rw [Option.some_inj.mp (hj.symm.trans hk)]

/-! Decoding an encoded instruction (R92). -/

theorem decodeWord_encodeWord {i : Instr} (h : i.WellFormed) : decodeWord (encodeWord i) = some i := by
  obtain ⟨k, r, hk, hr, hbuild⟩ := Laws.RowWord.statement_all i h
  rw [decodeWord_of_selects hk hr, hbuild]

/-- Settles O6: the two bytes are the word again, and the word decodes by the row that the instruction was encoded with. -/
theorem decodeInvertsEncode : Obligations.DecodeInvertsEncode := by
  intro i rest h
  simp only [encode, decode_wordBytes, decodeWord_encodeWord h]

/-! Encoding a decoded word (R92): a format puts the operand bits of a word back where it took them from (R82). -/

theorem fields_n_lt (w : Word) : (fields w).n < 16 := (w.extractLsb' 0 4).isLt

/-- A field of a word, put back at its own position, is the word with every other bit cleared. -/
theorem field_at_position (w : Word) (start len : Nat) :
    (w.extractLsb' start len).setWidth 16 <<< start = w &&& ((BitVec.allOnes len).setWidth 16 <<< start) := by
  apply BitVec.eq_of_getLsbD_eq
  intro k hk
  by_cases hs : k < start
  · simp [hs]
  · simp [hs, hk, show start + (k - start) = k by omega, Bool.and_comm]

theorem x_at_position (w : Word) : BitVec.ofNat 16 (fields w).x.val <<< 8 = w &&& 0x0F00 := by
  rw [show BitVec.ofNat 16 (fields w).x.val = (w.extractLsb' 8 4).setWidth 16 from BitVec.ofNat_toNat .., field_at_position]
  rfl

theorem y_at_position (w : Word) : BitVec.ofNat 16 (fields w).y.val <<< 4 = w &&& 0x00F0 := by
  rw [show BitVec.ofNat 16 (fields w).y.val = (w.extractLsb' 4 4).setWidth 16 from BitVec.ofNat_toNat .., field_at_position]
  rfl

theorem n_at_position (w : Word) : BitVec.ofNat 16 (fields w).n = w &&& 0x000F := by
  rw [show BitVec.ofNat 16 (fields w).n = (w.extractLsb' 0 4).setWidth 16 from BitVec.ofNat_toNat ..]
  simpa using field_at_position w 0 4

theorem nn_at_position (w : Word) : (fields w).nn.setWidth 16 = w &&& 0x00FF := by
  simpa [fields] using field_at_position w 0 8

theorem nnn_at_position (w : Word) : (fields w).nnn.setWidth 16 = w &&& 0x0FFF := by
  simpa [fields] using field_at_position w 0 12

theorem encNNN_fields (m w : Word) : encNNN m (fields w).nnn = m ||| (w &&& 0x0FFF) := by
  rw [encNNN, nnn_at_position]

theorem encX_fields (m w : Word) : encX m (fields w).x = m ||| (w &&& 0x0F00) := by
  rw [encX, x_at_position]

theorem encXNN_fields (m w : Word) : encXNN m (fields w).x (fields w).nn = m ||| (w &&& 0x0FFF) := by
  rw [encXNN, x_at_position, nn_at_position, BitVec.or_assoc, ← BitVec.and_or_distrib_left]
  rfl

theorem encXY_fields (m w : Word) : encXYN m (fields w).x (fields w).y 0 = m ||| (w &&& 0x0FF0) := by
  rw [encXYN, x_at_position, y_at_position, BitVec.or_assoc m, ← BitVec.and_or_distrib_left]
  exact BitVec.or_zero

theorem encXYN_fields (m w : Word) : encXYN m (fields w).x (fields w).y (fields w).n = m ||| (w &&& 0x0FFF) := by
  rw [encXYN, x_at_position, y_at_position, n_at_position, BitVec.or_assoc m, ← BitVec.and_or_distrib_left, BitVec.or_assoc,
    ← BitVec.and_or_distrib_left]
  rfl

/-- Every row builds an instruction that its encoding can hold. -/
theorem build_wellFormed (w : Word) : ∀ r ∈ opcodeTable, (r.build (fields w)).WellFormed := by
  simp [opcodeTable, controlFlowRows, registerRows, indexRandomDrawRows, memoryTimerRows, Instr.WellFormed, Instr.wellFormed, fields_n_lt]

/-- What a row builds is encoded as the row's pattern with the word's bits outside the row's mask. -/
theorem encodeWord_build (w : Word) : ∀ r ∈ opcodeTable, encodeWord (r.build (fields w)) = r.pattern ||| (w &&& ~~~r.mask) := by
  simp [opcodeTable, controlFlowRows, registerRows, indexRandomDrawRows, memoryTimerRows, encodeWord, encNNN_fields, encXNN_fields,
    encXYN_fields, encXY_fields, encX_fields]

/-- The bits a mask keeps and the bits it drops are all the bits of a word. -/
theorem pattern_or_operands {r : Row} {w : Word} (h : r.selects w = true) : r.pattern ||| (w &&& ~~~r.mask) = w := by
  rw [← beq_iff_eq.mp h, ← BitVec.and_or_distrib_left, BitVec.or_not_self, BitVec.and_allOnes]

/-- Settles O7: the selected row's pattern holds the masked bits, and the fields hold the others. -/
theorem encodeInvertsDecode : Obligations.EncodeInvertsDecode := by
  intro w i h
  obtain ⟨r, hmem, hsel, rfl⟩ := decodeWord_eq_some h
  exact ⟨build_wellFormed w r hmem, (encodeWord_build w r hmem).trans (pattern_or_operands hsel)⟩

/-! The unrecognised words (R87). -/

/-- A mask that keeps the major opcode and the low `k` bits of a word (none, the low nibble, the low byte or all twelve) asks the word for
the pattern's major opcode and low bits. -/
theorem selects_iff {r : Row} {w : Word} {k : Nat} (hk : k ≤ 12) (hmask : r.mask.toNat = 0xF000 + (2 ^ k - 1)) :
    r.selects w = true ↔ w.toNat / 4096 = r.pattern.toNat / 4096 ∧ w.toNat % 2 ^ k = r.pattern.toNat % 4096 := by
  have hpow : 2 ^ k ≤ 2 ^ 12 := Nat.pow_le_pow_right (by decide) hk
  have hpos : 0 < 2 ^ k := Nat.two_pow_pos k
  have hhigh : r.mask.toNat / 2 ^ 12 = 2 ^ 4 - 1 := by omega
  have hlow : r.mask.toNat % 2 ^ 12 = 2 ^ k - 1 := by omega
  have hdiv : (w.toNat &&& r.mask.toNat) / 2 ^ 12 = w.toNat / 2 ^ 12 := by
    rw [Nat.and_div_two_pow, hhigh, Nat.and_two_pow_sub_one_eq_mod, Nat.mod_eq_of_lt (by omega)]
  have hmod : (w.toNat &&& r.mask.toNat) % 2 ^ 12 = w.toNat % 2 ^ k := by
    rw [Nat.and_mod_two_pow, hlow, Nat.and_two_pow_sub_one_eq_mod, Nat.mod_mod_of_dvd _ (Nat.pow_dvd_pow 2 hk)]
  rw [Row.selects, beq_iff_eq, ← BitVec.toNat_inj, BitVec.toNat_and]
  omega

section
variable {w p : Word} {build : Fields → Instr}

theorem selects_major : Row.selects ⟨0xF000, p, build⟩ w = true ↔ w.toNat / 4096 = p.toNat / 4096 ∧ 0 = p.toNat % 4096 := by
  rw [selects_iff (k := 0) (Nat.zero_le _) rfl, Nat.pow_zero, Nat.mod_one]

theorem selects_majorNibble :
    Row.selects ⟨0xF00F, p, build⟩ w = true ↔ w.toNat / 4096 = p.toNat / 4096 ∧ w.toNat % 16 = p.toNat % 4096 :=
  selects_iff (k := 4) (by decide) rfl

theorem selects_majorByte :
    Row.selects ⟨0xF0FF, p, build⟩ w = true ↔ w.toNat / 4096 = p.toNat / 4096 ∧ w.toNat % 256 = p.toNat % 4096 :=
  selects_iff (k := 8) (by decide) rfl

theorem selects_whole :
    Row.selects ⟨0xFFFF, p, build⟩ w = true ↔ w.toNat / 4096 = p.toNat / 4096 ∧ w.toNat % 4096 = p.toNat % 4096 :=
  selects_iff (k := 12) (by decide) rfl

end

/-- Settles O9: each row asks for a major opcode and low bits, so under each major opcode only the rows that name it are left. -/
theorem unrecognisedWordsAreThoseListed : Obligations.UnrecognisedWordsAreThoseListed := by
  intro w
  simp only [decodeWord_eq_none, opcodeTable, controlFlowRows, registerRows, indexRandomDrawRows, memoryTimerRows, List.forall_mem_append,
    List.forall_mem_cons, selects_major, selects_majorNibble, selects_majorByte, selects_whole]
  have hmajor : w.toNat / 4096 = 0 ∨ w.toNat / 4096 = 8 ∨ w.toNat / 4096 = 15 ∨
      (1 ≤ w.toNat / 4096 ∧ w.toNat / 4096 ≤ 7) ∨ (9 ≤ w.toNat / 4096 ∧ w.toNat / 4096 ≤ 14) := by omega
  rcases hmajor with hmajor | hmajor | hmajor | ⟨hge, hle⟩ | ⟨hge, hle⟩
  · have hwhole : w.toNat % 4096 = w.toNat := by omega
    simp [hmajor, hwhole]
  · have hlow : w.toNat % 16 < 16 := Nat.mod_lt _ (by decide)
    simp only [hmajor]
    interval_cases w.toNat % 16 <;> simp
  · simp [hmajor, and_comm, and_left_comm, and_assoc]
  · interval_cases w.toNat / 4096 <;> simp
  · interval_cases w.toNat / 4096 <;> simp

/-- Settles O10: fixed words, which the table decodes by computation. -/
theorem specWordsDecode : Obligations.SpecWordsDecode := by
  unfold Obligations.SpecWordsDecode
  decide

end Sys2Proof
end

section
/-! Proofs of the execution cycle (40_execution_cycle.md): every transaction completes, what a tick is for a recognised and for an
unrecognised word, that it counts the timers, and where an instruction leaves the program counter. -/
namespace Sys2Proof.Machine

/-! Completion (R110, R220). -/

theorem transact_next (op : HostOp) (s : State) : ∃ t, transact op s = .next t := by
  cases op with
  | powerOn => exact ⟨_, rfl⟩
  | reset => exact ⟨_, rfl⟩
  | loadProgram bytes => exact ⟨_, rfl⟩
  | tick keypad rnd =>
    obtain ⟨t, -, ht⟩ := tick_eq keypad rnd s
    exact ⟨_, ht⟩

/-- Settles O3: a step is one transaction, and a tick is the only one that runs an instruction. -/
theorem stepAlwaysAnswersNext : Obligations.StepAlwaysAnswersNext := fun s => transact_next s.nextOp.1 s.nextOp.2

/-! A tick written out (R110 to R118, R121). -/

/-- Step 4 as one update: the two reads together note `OOB_READ` when the second of them lies outside memory (R55, R58). -/
theorem noteFetch_eq_update (s : State) :
    s.noteFetch = { s with notes := if 0xFFF ≤ s.pc.toNat then s.notes.mark .oobRead else s.notes } := by
  rw [← noteFetch_notes, noteFetch_eq]
  unfold State.noteRead
  split <;> split <;> rfl

/-- Bytes that decode do so by the word of the first two. -/
theorem decodeWord_of_decode {hi lo : Byte} {tail rest : List Byte} {i : Instr} (h : decode (hi :: lo :: tail) = .ok (i, rest)) :
    decodeWord (hi ++ lo) = some i := by
  rw [decode] at h
  split at h
  · cases h
    assumption
  · cases h

/-- Settles O12: steps 1 to 4 as one update, then the decoded instruction, then the report. -/
theorem stepRunsDecodedInstruction : Obligations.StepRunsDecodedInstruction := by
  intro s keypad rnd s0 i rest hop hdecode _
  obtain ⟨t, ht⟩ := exec_next i (s0.beginTick keypad rnd).noteFetch
  have hstep : step s = .next t.endTick := step_recognised hop (decodeWord_of_decode hdecode) ht
  rw [noteFetch_eq_update] at ht
  exact ⟨t, ht, hstep⟩

/-- Settles O13: the tick as one update; a sound timer counted down is above 0 exactly when it was above 1. -/
theorem unrecognisedWordIsNoOp : Obligations.UnrecognisedWordIsNoOp := by
  refine ⟨by decide, fun s keypad rnd s0 hop hd => ?_⟩
  have hsound : decide (1 < s0.st.toNat) = decide (0 < (countDown s0.st).toNat) := by
    rw [countDown_toNat, decide_eq_decide]
    omega
  rw [step_unrecognised hop hd, noteFetch_eq_update, hsound]
  rfl

/-! The timers (R113). -/

@[simp] theorem noteFetch_dt (s : State) : s.noteFetch.dt = s.dt := noteReads_dt _ _ s

@[simp] theorem noteFetch_st (s : State) : s.noteFetch.st = s.st := noteReads_st _ _ s

theorem runWord_dt_or_ldDtVx {w : Word} {s t : State} (h : runWord w s = .next t) :
    (∃ x, decodeWord w = some (.ldDtVx x)) ∨ t.dt = s.dt := by
  rcases runWord_cases h with ⟨i, hd, hi⟩ | ⟨-, rfl⟩
  · exact (exec_dt_or_ldDtVx hi).imp_left fun ⟨x, hx⟩ => ⟨x, hx ▸ hd⟩
  · exact .inr rfl

theorem runWord_st_or_ldStVx {w : Word} {s t : State} (h : runWord w s = .next t) :
    (∃ x, decodeWord w = some (.ldStVx x)) ∨ t.st = s.st := by
  rcases runWord_cases h with ⟨i, hd, hi⟩ | ⟨-, rfl⟩
  · exact (exec_st_or_ldStVx hi).imp_left fun ⟨x, hx⟩ => ⟨x, hx ▸ hd⟩
  · exact .inr rfl

/-- Settles O15: step 3 counts both timers down, and only the one write of each changes the count afterwards. -/
theorem everyTickCountsTimersDown : Obligations.EveryTickCountsTimersDown := by
  intro s keypad rnd s0 t hop h
  obtain ⟨u, hu, rfl⟩ := step_tick hop h
  refine ⟨fun hno => ?_, fun hno => ?_⟩
  · have hdt := (runWord_dt_or_ldDtVx hu).resolve_left (not_exists.mpr hno)
    rw [endTick_dt, hdt, noteFetch_dt, beginTick_dt, countDown_toNat]
  · have hst := (runWord_st_or_ldStVx hu).resolve_left (not_exists.mpr hno)
    rw [endTick_st, hst, noteFetch_st, beginTick_st, countDown_toNat]

/-! The program counter (R119, R120, R140). -/

/-- The six skips. -/
def IsSkip (i : Instr) : Prop :=
  (∃ x nn, i = .seByte x nn ∨ i = .sneByte x nn) ∨ (∃ x y, i = .seReg x y ∨ i = .sneReg x y) ∨ ∃ x, i = .skp x ∨ i = .sknp x

/-- The four instructions that replace the program counter. -/
def IsJump (i : Instr) : Prop := i = .ret ∨ ∃ nnn, i = .jp nnn ∨ i = .call nnn ∨ i = .jpV0 nnn

theorem exec_pc_of_isSkip {i : Instr} {s t : State} (hi : IsSkip i) (h : exec i s = .next t) :
    t.pc = s.pc + 2 ∨ t.pc = s.pc + 4 := by
  have hskip (b : Bool) : (skipIf b).apply s.pc = s.pc + 2 ∨ (skipIf b).apply s.pc = s.pc + 4 := by
    cases b
    · exact .inl rfl
    · exact .inr rfl
  rcases hi with ⟨x, nn, rfl | rfl⟩ | ⟨x, y, rfl | rfl⟩ | ⟨x, rfl | rfl⟩ <;> obtain rfl := complete_inv h
  case inr.inr.inl | inr.inr.inr =>
    rw [advance_pc, noteKey_pc]
    exact hskip _
  all_goals exact hskip _

theorem exec_pc_of_ldVxK {x : Reg} {s t : State} (h : exec (.ldVxK x) s = .next t) : t.pc = s.pc + 2 ∨ t.pc = s.pc := by
  obtain rfl := complete_inv h
  rw [advance_pc, takeKey_pc, keyDirective_apply]
  exact ite_eq_or_eq _ _ _

/-- Every other instruction completes with the directive `Next`. -/
theorem exec_pc_or_leaves {i : Instr} {s t : State} (h : exec i s = .next t) :
    t.pc = s.pc + 2 ∨ IsSkip i ∨ (∃ x, i = .ldVxK x) ∨ IsJump i := by
  cases i
  case seByte | sneByte | seReg | sneReg | skp | sknp => exact .inr (.inl (by simp [IsSkip]))
  case ldVxK x => exact .inr (.inr (.inl ⟨x, rfl⟩))
  case ret | jp | call | jpV0 => exact .inr (.inr (.inr (by simp [IsJump])))
  all_goals
    obtain rfl := complete_inv h
    exact .inl (by simp [Directive.apply])

/-- Settles O31: a skip that is not 2 further is 4 further, and a key-wait that is not holds. -/
theorem onlyListedInstructionsLeaveSequence : Obligations.OnlyListedInstructionsLeaveSequence := by
  intro i s t h
  rcases exec_pc_or_leaves h with hpc | hskip | ⟨x, rfl⟩ | hjump
  · exact .inl hpc
  · exact (exec_pc_of_isSkip hskip h).imp_right fun hpc => .inl ⟨hpc, hskip⟩
  · exact (exec_pc_of_ldVxK h).imp_right fun hpc => .inr (.inl ⟨hpc, x, rfl⟩)
  · exact .inr (.inr (.inr hjump))

end Sys2Proof.Machine
end

section
/-! Proofs of the control-flow family (41_control_flow.md): each instruction is an operation on the state and a directive, so its frame is
the operation's frame and the program counter. -/
namespace Sys2Proof.Machine

/-! Frames (R34). -/

theorem keepsAllBut_refl (s : State) : KeepsAllBut [] s s := by
  intro p _
  cases p
  case mem => exact ⟨rfl, fun _ => rfl⟩
  all_goals rfl

theorem KeepsAllBut.mono {l l' : List Part} {s t : State} (h : KeepsAllBut l s t) (hl : l ⊆ l') : KeepsAllBut l' s t :=
  fun p hp => h p fun hmem => hp (hl hmem)

/-- Step 8 of a tick adds the program counter to what changed, and nothing more. -/
theorem KeepsAllBut.advance {l : List Part} {s t : State} (h : KeepsAllBut l s t) (d : Directive) :
    KeepsAllBut (.pc :: l) s (t.advance d) := by
  intro p hp
  have hsame : p.same s t := h p fun hl => hp (List.mem_cons_of_mem _ hl)
  cases p
  case pc => exact absurd List.mem_cons_self hp
  all_goals exact hsame

theorem noteKey_keepsAllBut (v : Byte) (s : State) : KeepsAllBut [.notes] s (s.noteKey v) := by
  intro p hp
  cases p
  case notes => simp at hp
  case mem => exact ⟨noteKey_mem v s, readByte_congr (noteKey_mem v s) (noteKey_cfg v s)⟩
  all_goals simp [Part.same]

theorem pushReturn_keepsAllBut (ra : Word) (s : State) : KeepsAllBut [.stack, .sp, .notes] s (s.pushReturn ra) := by
  intro p hp
  cases p
  case stack | sp | notes => simp at hp
  case mem => exact ⟨pushReturn_mem ra s, readByte_congr (pushReturn_mem ra s) (pushReturn_cfg ra s)⟩
  all_goals simp [Part.same]

theorem popReturn_keepsAllBut (s : State) : KeepsAllBut [.sp, .notes] s s.popReturn := by
  intro p hp
  cases p
  case sp | notes => simp at hp
  case mem => exact ⟨popReturn_mem s, readByte_congr (popReturn_mem s) (popReturn_cfg s)⟩
  all_goals simp [Part.same]

theorem clear_keepsAllBut (s : State) : KeepsAllBut [.fb, .fc] s { s with fb := blankFrame, fc := true } := by
  intro p hp
  cases p
  case fb | fc => simp at hp
  case mem => exact ⟨rfl, fun _ => rfl⟩
  all_goals rfl

/-! Clearing and jumping (R130, R132). -/

theorem blankFrame_cell (r : Fin 32) (c : Fin 64) : blankFrame[r][c] = false := by simp [blankFrame]

@[simp] theorem zextAddr_toNat (nnn : Addr) : (zextAddr nnn).toNat = nnn.toNat :=
  BitVec.toNat_setWidth_of_le (by decide)

/-- Settles O23: the cleared cells and `fc` are the operation's, `pc` is the directive's. -/
theorem clsClearsFrameBuffer : Obligations.ClsClearsFrameBuffer := by
  intro s
  have hsub : [Part.pc, .fb, .fc] ⊆ [.fb, .fc, .pc] := by simp
  exact ⟨_, rfl, blankFrame_cell, rfl, rfl, ((clear_keepsAllBut s).advance .next).mono hsub⟩

/-- Settles O25: the directive alone acts. -/
theorem jpJumpsToOperand : Obligations.JpJumpsToOperand := fun nnn s =>
  ⟨_, rfl, zextAddr_toNat nnn, (keepsAllBut_refl s).advance _⟩

/-! Call and return (R131, R133). -/

theorem returnTarget_held {s : State} {j : Fin 16} (h : s.sp.val = j.val + 1) : s.returnTarget = s.stack[j] := by
  simp [State.returnTarget, h]

theorem returnTarget_empty {s : State} (h : s.sp.val = 0) : s.returnTarget = s.stack[0] := by
  simp [State.returnTarget, h]

/-- Settles O24: the stack pointer is clamped at 0, and only there is the underflow noted. -/
theorem retPopsReturnAddress : Obligations.RetPopsReturnAddress := by
  intro s
  refine ⟨_, rfl, (popReturn_keepsAllBut s).advance _, fun j hj => ?_, fun h0 => ?_⟩
  · have hheld : s.sp.val ≠ 0 := by omega
    rw [advance_pc, advance_sp, advance_notes, popReturn_held hheld]
    exact ⟨returnTarget_held hj, Nat.sub_eq_of_eq_add hj, rfl⟩
  · rw [advance_pc, advance_sp, advance_notes, popReturn_empty (Fin.ext h0)]
    exact ⟨returnTarget_empty h0, h0, rfl⟩

/-- Settles O26: the push happens where there is room, the jump always. -/
theorem callPushesReturnAddress : Obligations.CallPushesReturnAddress := by
  intro nnn s
  refine ⟨_, rfl, zextAddr_toNat nnn, (pushReturn_keepsAllBut (s.pc + 2) s).advance _, fun j hj => ?_, fun hfull => ?_⟩
  · have hroom : s.sp.val < 16 := by omega
    rw [advance_stack, advance_sp, advance_notes, pushReturn_room hroom]
    refine ⟨by simp [hj], fun k hk => ?_, congrArg (· + 1) hj, rfl⟩
    exact Vector.getElem_set_ne hroom k.isLt fun hspk => hk (Fin.ext (hspk.symm.trans hj))
  · rw [advance_stack, advance_sp, advance_notes, pushReturn_full (Fin.ext hfull)]
    exact ⟨rfl, rfl, rfl⟩

/-- Settles O27: the entry the call pushes is the one the return pops. -/
theorem callThenReturnComesBack : Obligations.CallThenReturnComesBack := by
  intro nnn s t u hroom hcall hstack hsp
  obtain ⟨t', hcall', -, -, hpush, -⟩ := callPushesReturnAddress nnn s
  obtain rfl : t = t' := Host.Outcome.next.inj (hcall.symm.trans hcall')
  obtain ⟨hentry, -, htsp, -⟩ := hpush ⟨s.sp.val, hroom⟩ rfl
  obtain ⟨v, hret, -, hpop, -⟩ := retPopsReturnAddress u
  obtain ⟨hpc, hvsp, hnotes⟩ := hpop ⟨s.sp.val, hroom⟩ (by rw [hsp, htsp])
  exact ⟨v, hret, by rw [hpc, hstack, hentry], Fin.ext hvsp, hnotes⟩

/-! Skips (R134 to R139). -/

/-- Where a skip on the opposite condition leaves the program counter. -/
theorem skipIf_not_apply (b : Bool) (pc : Word) : (skipIf !b).apply pc = if b = true then pc + 2 else pc + 4 := by cases b <;> rfl

/-- The skips on equality and on inequality of two bytes, whether registers or immediates. -/
theorem byteSkips_complete (a b : Byte) (s : State) :
    (∃ t, s.complete (skipIf (a == b)) = .next t ∧ t.pc = (if a = b then s.pc + 4 else s.pc + 2) ∧ KeepsAllBut [.pc] s t) ∧
    (∃ t, s.complete (skipIf (a != b)) = .next t ∧ t.pc = (if a = b then s.pc + 2 else s.pc + 4) ∧ KeepsAllBut [.pc] s t) := by
  refine ⟨⟨_, rfl, ?_, (keepsAllBut_refl s).advance _⟩, ⟨_, rfl, ?_, (keepsAllBut_refl s).advance _⟩⟩
  · simp only [advance_pc, skipIf_apply, beq_iff_eq]
  · simp only [advance_pc, bne, skipIf_not_apply, beq_iff_eq]

/-- Settles O28: the skips on a register and an immediate. -/
theorem byteSkipsCompareRegister : Obligations.ByteSkipsCompareRegister := fun x nn s => byteSkips_complete (s.reg x) nn s

/-- Settles O29: the skips on two registers. -/
theorem registerSkipsCompareRegisters : Obligations.RegisterSkipsCompareRegisters := fun x y s =>
  byteSkips_complete (s.reg x) (s.reg y) s

/-- Settles O30: the key is the one the model reads, and the note is all that a key skip adds to a skip. -/
theorem keySkipsReadLatch : Obligations.KeySkipsReadLatch := by
  intro x s k hk
  obtain rfl : keyNumber (s.reg x) = k := Fin.ext ((keyNumber_val _).trans hk.symm)
  have hframe (d : Directive) := (noteKey_keepsAllBut (s.reg x) s).advance d
  refine ⟨⟨_, rfl, ?_, noteKey_notes _ s, hframe _⟩, ⟨_, rfl, ?_, noteKey_notes _ s, hframe _⟩⟩
  · rw [advance_pc, skipIf_apply, noteKey_pc]
  · rw [advance_pc, skipIf_not_apply, noteKey_pc]

end Sys2Proof.Machine
end

section
/-! Proofs of the register family (42_register_alu.md): each instruction writes its result to `x[X]`, and five of them a flag to `x[15]`
after it, so what they all share is said once for each of the two kinds of write. -/
namespace Sys2Proof.Machine

/-! Instructions that write one register (R150 to R155). -/

theorem registers_keepsAllBut (regs : Vector Byte 16) (s : State) : KeepsAllBut [.x] s { s with x := regs } := by
  intro p hp
  cases p
  case x => simp at hp
  case mem => exact ⟨rfl, fun _ => rfl⟩
  all_goals rfl

/-- A byte of which `P` holds is written to `x[X]` and the instruction completes: nothing else but `pc` changes. -/
theorem setReg_completes (P : Byte → Prop) (x : Reg) (s : State) {v : Byte} (hv : P v) :
    ∃ t, (s.setReg x v).complete .next = .next t ∧ t.pc = s.pc + 2 ∧ KeepsAllBut [.x, .pc] s t ∧
      P (t.reg x) ∧ ∀ q, q ≠ x → t.reg q = s.reg q := by
  have hsub : [Part.pc, .x] ⊆ [.x, .pc] := by simp
  refine ⟨_, rfl, rfl, ((registers_keepsAllBut _ s).advance .next).mono hsub, ?_, fun q hq => ?_⟩
  · rwa [reg_advance, reg_setReg, if_pos rfl]
  · rw [reg_advance, reg_setReg, if_neg hq]

/-- Settles O32: the byte written is the immediate, the sum modulo 256, the other register. -/
theorem loadsCopyAndImmediateAdd : Obligations.LoadsCopyAndImmediateAdd := fun x y nn s =>
  ⟨setReg_completes (· = nn) x s rfl,
    setReg_completes (·.toNat = ((s.reg x).toNat + nn.toNat) % 256) x s (BitVec.toNat_add _ _),
    setReg_completes (· = s.reg y) x s rfl⟩

/-- Settles O33: the byte written has the bits of the bitwise operation. -/
theorem logicIsBitwise : Obligations.LogicIsBitwise := fun x y s =>
  ⟨setReg_completes (fun v => ∀ k, v.getLsbD k = ((s.reg x).getLsbD k || (s.reg y).getLsbD k)) x s fun _ => BitVec.getLsbD_or,
    setReg_completes (fun v => ∀ k, v.getLsbD k = ((s.reg x).getLsbD k && (s.reg y).getLsbD k)) x s fun _ => BitVec.getLsbD_and,
    setReg_completes (fun v => ∀ k, v.getLsbD k = ((s.reg x).getLsbD k ^^ (s.reg y).getLsbD k)) x s fun _ => BitVec.getLsbD_xor⟩

/-! Instructions that write a result and a flag (R156 to R161). -/

/-- A result of which `P` holds is written to `x[X]`, then a flag of which `F` holds to `x[15]`, and the instruction completes: the flag
stands for every `X`, the result where `X` is not 15 (R161; D12), and nothing else but `pc` changes. -/
theorem setResultFlag_completes (F P : Byte → Prop) (x : Reg) (s : State) {v w : Byte} (hw : F w) (hv : P v) :
    ∃ t, (s.setResultFlag x v w).complete .next = .next t ∧ t.pc = s.pc + 2 ∧ KeepsAllBut [.x, .pc] s t ∧
      F (t.reg 15) ∧ (x ≠ 15 → P (t.reg x)) ∧ ∀ q, q ≠ x → q ≠ 15 → t.reg q = s.reg q := by
  have hsub : [Part.pc, .x] ⊆ [.x, .pc] := by simp
  refine ⟨_, rfl, rfl, ((registers_keepsAllBut _ s).advance .next).mono hsub, ?_, fun hx => ?_, fun q hq hflag => ?_⟩
  · rwa [reg_advance, flagReg_setResultFlag]
  · rwa [reg_advance, reg_setResultFlag, flagReg, if_neg hx, if_pos rfl]
  · rw [reg_advance, reg_setResultFlag, flagReg, if_neg hflag, if_neg hq]

theorem flagOf_decide (p : Prop) [Decidable p] : flagOf (decide p) = if p then 1 else 0 := by simp [flagOf]

theorem flagOf_toNat (b : Bool) : (flagOf b).toNat = b.toNat := by cases b <;> rfl

/-- Settles O34: the carry compares the unbounded sum with 255. -/
theorem addSetsCarryLast : Obligations.AddSetsCarryLast := fun x y s =>
  setResultFlag_completes (· = if 255 < (s.reg x).toNat + (s.reg y).toNat then 1 else 0)
    (·.toNat = ((s.reg x).toNat + (s.reg y).toNat) % 256) x s (flagOf_decide _) (BitVec.toNat_add _ _)

/-- A difference of bytes, the borrowed 256 added before the subtrahend is taken away. -/
theorem byte_toNat_sub (a b : Byte) : (a - b).toNat = (a.toNat + 256 - b.toNat) % 256 := by
  rw [BitVec.toNat_sub]
  have hb := b.isLt
  omega

/-- A subtraction in either order of the operands: the minuend is `a`, and the flag is 1 exactly when it is strictly greater. -/
theorem subtraction_completes (x : Reg) (a b : Byte) (s : State) :
    ∃ t, (s.setResultFlag x (a - b) (greaterFlag a b)).complete .next = .next t ∧ t.pc = s.pc + 2 ∧ KeepsAllBut [.x, .pc] s t ∧
      t.reg 15 = (if b.toNat < a.toNat then 1 else 0) ∧
      (x ≠ 15 → (t.reg x).toNat = (a.toNat + 256 - b.toNat) % 256) ∧ ∀ q, q ≠ x → q ≠ 15 → t.reg q = s.reg q :=
  setResultFlag_completes (· = if b.toNat < a.toNat then 1 else 0) (·.toNat = (a.toNat + 256 - b.toNat) % 256) x s
    (flagOf_decide _) (byte_toNat_sub a b)

/-- Settles O35: `SUB` and `SUBN` are the two orders of the operands. -/
theorem subtractionsSetStrictFlagLast : Obligations.SubtractionsSetStrictFlagLast := fun x y s =>
  ⟨subtraction_completes x (s.reg x) (s.reg y) s, subtraction_completes x (s.reg y) (s.reg x) s⟩

theorem rightShiftFlag_toNat (a : Byte) : (rightShiftFlag a).toNat = a.toNat % 2 := by
  rw [rightShiftFlag, flagOf_toNat, BitVec.getLsbD, Nat.toNat_testBit, Nat.pow_zero, Nat.div_one]

theorem leftShiftFlag_toNat (a : Byte) : (leftShiftFlag a).toNat = a.toNat / 128 := by
  rw [leftShiftFlag, flagOf_toNat, BitVec.getLsbD, Nat.toNat_testBit]
  have ha := a.isLt
  omega

theorem byte_toNat_ushiftRight_one (a : Byte) : (a >>> 1).toNat = a.toNat / 2 := by
  rw [BitVec.toNat_ushiftRight, Nat.shiftRight_one]

theorem byte_toNat_shiftLeft_one (a : Byte) : (a <<< 1).toNat = a.toNat * 2 % 256 := by
  rw [BitVec.toNat_shiftLeft, Nat.shiftLeft_eq]

/-- Settles O36: the `Y` nibble reaches neither the result nor the flag. -/
theorem shiftsMoveBitIntoFlag : Obligations.ShiftsMoveBitIntoFlag := fun x _ s =>
  ⟨setResultFlag_completes (·.toNat = (s.reg x).toNat % 2) (·.toNat = (s.reg x).toNat / 2) x s
      (rightShiftFlag_toNat _) (byte_toNat_ushiftRight_one _),
    setResultFlag_completes (·.toNat = (s.reg x).toNat / 128) (·.toNat = (s.reg x).toNat * 2 % 256) x s
      (leftShiftFlag_toNat _) (byte_toNat_shiftLeft_one _)⟩

end Sys2Proof.Machine
end

section
/-! Proofs of the index family (43_index_address.md): three instructions write `I` and go on to the next, the fourth jumps; what they
write is a 16-bit value of unbounded arithmetic, wrapped where it can exceed 65535. -/
namespace Sys2Proof.Machine

/-! Values (R170 to R173). -/

@[simp] theorem zextByte_toNat (v : Byte) : (zextByte v).toNat = v.toNat :=
  BitVec.toNat_setWidth_of_le (by decide)

/-- Adding a register to an address wraps modulo 65536 (D19). -/
theorem add_zextByte_toNat (a : Word) (v : Byte) : (a + zextByte v).toNat = (a.toNat + v.toNat) % 65536 := by
  rw [BitVec.toNat_add, zextByte_toNat]

/-- The greatest glyph address is `0x050 + 5 * 255`, so 16 bits hold it for every value of the register. -/
theorem glyphAddr_toNat (v : Byte) : (glyphAddr v).toNat = 0x050 + 5 * v.toNat := by
  have hv := v.isLt
  rw [glyphAddr, BitVec.toNat_ofNat]
  exact Nat.mod_eq_of_lt (by omega)

/-! Instructions that write the index register (R170, R172, R173). -/

theorem setI_keepsAllBut (a : Word) (s : State) : KeepsAllBut [.I] s (s.setI a) := by
  intro p hp
  cases p
  case I => simp at hp
  case mem => exact ⟨rfl, fun _ => rfl⟩
  all_goals rfl

/-- A word of unsigned value `n` is written to `I` and the instruction completes: nothing else but `pc` changes. -/
theorem setI_completes (s : State) {a : Word} {n : Nat} (ha : a.toNat = n) :
    ∃ t, (s.setI a).complete .next = .next t ∧ t.pc = s.pc + 2 ∧ KeepsAllBut [.I, .pc] s t ∧ t.I.toNat = n := by
  have hsub : [Part.pc, .I] ⊆ [.I, .pc] := by simp
  exact ⟨_, rfl, rfl, ((setI_keepsAllBut a s).advance .next).mono hsub, ha⟩

/-- Settles O39: the words written are the operand and the glyph's address. -/
theorem indexLoads : Obligations.IndexLoads := fun nnn x s =>
  ⟨setI_completes s (zextAddr_toNat nnn), setI_completes s (glyphAddr_toNat (s.reg x))⟩

/-- Settles O40: the word written is the wrapped sum. -/
theorem addIndexWraps : Obligations.AddIndexWraps := fun x s =>
  setI_completes s (add_zextByte_toNat s.I (s.reg x))

/-! The indexed jump (R171). -/

theorem jumpBase_index {s : State} (nnn : Addr) (h : s.cfg.jp0Base = .index) : s.jumpBase nnn = s.I := by
  rw [State.jumpBase, h]

theorem jumpBase_operand {s : State} (nnn : Addr) (h : s.cfg.jp0Base = .operand) : s.jumpBase nnn = zextAddr nnn := by
  rw [State.jumpBase, h]

/-- Where `I` holds the operand, the two readings of the base agree. -/
theorem jumpBase_toNat_of_I_eq {s : State} {nnn : Addr} (h : s.I.toNat = nnn.toNat) : (s.jumpBase nnn).toNat = nnn.toNat := by
  cases hbase : s.cfg.jp0Base
  case index => rw [jumpBase_index nnn hbase, h]
  case operand => rw [jumpBase_operand nnn hbase, zextAddr_toNat]

/-- Settles O41: the target is the base plus `x[0]`, and each clause says what the base is. -/
theorem indexedJumpForBothBases : Obligations.IndexedJumpForBothBases := by
  intro nnn s
  have htarget := add_zextByte_toNat (s.jumpBase nnn) (s.reg 0)
  refine ⟨_, rfl, (keepsAllBut_refl s).advance _, fun hindex => ?_, fun hoperand => ?_, fun hI => ?_⟩
  · exact htarget.trans (by rw [jumpBase_index nnn hindex])
  · exact htarget.trans (by rw [jumpBase_operand nnn hoperand, zextAddr_toNat])
  · exact htarget.trans (by rw [jumpBase_toNat_of_I_eq hI])

end Sys2Proof.Machine
end

section
/-! Proofs of the random family (44_random.md): `RND` masks the byte at the input port, and every other word runs the same whatever byte
stands there. For the second, putting another byte at the port commutes with each operation an instruction is made of. -/
namespace Sys2Proof.Machine

/-! The masked byte (R180). -/

/-- Settles O38: a mask bounds what it is applied to. -/
theorem randomByteIsMasked : Obligations.RandomByteIsMasked := by
  intro x nn s
  obtain ⟨t, ht, hpc, hframe, ⟨hbits, hle⟩, hothers⟩ := setReg_completes
    (fun v => (∀ k, v.getLsbD k = (s.rnd.getLsbD k && nn.getLsbD k)) ∧ v.toNat ≤ nn.toNat) x s
    ⟨fun _ => BitVec.getLsbD_and, Nat.and_le_right⟩
  exact ⟨t, ht, hpc, hframe, hbits, hle, hothers⟩

/-! Another byte at the input port (R42): an operation with no branch commutes with it by definition, a branching
one because what it branches on is not the port, a repeated one step by step. -/

/-- The state with the byte `v` at the input port. -/
def State.setRnd (v : Byte) (s : State) : State := { s with rnd := v }

theorem setRnd_keepsAllBut (v : Byte) (s : State) : KeepsAllBut [.rnd] s (s.setRnd v) := by
  intro p hp
  cases p
  case rnd => simp at hp
  case mem => exact ⟨rfl, fun _ => rfl⟩
  all_goals rfl

theorem noteRead_setRnd (v : Byte) (a : Nat) (s : State) : (s.setRnd v).noteRead a = (s.noteRead a).setRnd v := by
  unfold State.noteRead
  rw [apply_ite (State.setRnd v)]
  rfl

theorem noteKey_setRnd (v b : Byte) (s : State) : (s.setRnd v).noteKey b = (s.noteKey b).setRnd v := by
  unfold State.noteKey
  rw [apply_ite (State.setRnd v)]
  rfl

theorem writeByte_setRnd (v : Byte) (a : Nat) (b : Byte) (s : State) : (s.setRnd v).writeByte a b = (s.writeByte a b).setRnd v := by
  unfold State.writeByte
  rw [apply_ite (State.setRnd v)]
  rfl

theorem pushReturn_setRnd (v : Byte) (ra : Word) (s : State) : (s.setRnd v).pushReturn ra = (s.pushReturn ra).setRnd v := by
  unfold State.pushReturn
  rw [apply_dite (State.setRnd v)]
  rfl

theorem popReturn_setRnd (v : Byte) (s : State) : (s.setRnd v).popReturn = s.popReturn.setRnd v := by
  unfold State.popReturn
  rw [apply_ite (State.setRnd v)]
  rfl

theorem takeKey_setRnd (v : Byte) (x : Reg) (s : State) : (s.setRnd v).takeKey x = (s.takeKey x).setRnd v := by
  have hkey : leastKey (s.setRnd v).kp = leastKey s.kp := rfl
  rw [State.takeKey, State.takeKey, hkey]
  cases leastKey s.kp <;> rfl

theorem noteReads_setRnd (v : Byte) (a n : Nat) (s : State) : (s.setRnd v).noteReads a n = (s.noteReads a n).setRnd v := by
  induction n generalizing a s with
  | zero => rfl
  | succ n ih => simp only [State.noteReads, noteRead_setRnd, ih]

theorem writeBytes_setRnd (v : Byte) (a : Nat) (bs : List Byte) (s : State) :
    (s.setRnd v).writeBytes a bs = (s.writeBytes a bs).setRnd v := by
  induction bs generalizing a s with
  | nil => rfl
  | cons b bs ih => simp only [State.writeBytes, writeByte_setRnd, ih]

theorem loadBlock_setRnd (v : Byte) (a : Nat) (rs : List Reg) (s : State) :
    (s.setRnd v).loadBlock a rs = (s.loadBlock a rs).setRnd v := by
  induction rs generalizing s with
  | nil => rfl
  | cons r rs ih =>
    rw [State.loadBlock, noteRead_setRnd]
    exact ih ((s.noteRead (a + r.val)).setReg r (s.readByte (a + r.val)))

/-! Instructions, words and ticks with another byte at the port (R181). -/

theorem exec_setRnd {i : Instr} {s t : State} (v : Byte) (hi : ∀ x nn, i ≠ .rnd x nn) (h : exec i s = .next t) :
    exec i (s.setRnd v) = .next (t.setRnd v) := by
  cases i <;> obtain rfl := complete_inv h
  case rnd x nn => exact absurd rfl (hi x nn)
  case ret => exact congrArg (State.complete _) (popReturn_setRnd v s)
  case call => exact congrArg (State.complete _) (pushReturn_setRnd v _ s)
  case skp | sknp => exact congrArg (State.complete _) (noteKey_setRnd v _ s)
  case drw =>
    rw [exec, execDrw, noteReads_setRnd]
    rfl
  case ldB | storeRegs => exact congrArg (State.complete _) (writeBytes_setRnd v _ _ s)
  case loadRegs => exact congrArg (State.complete _) (loadBlock_setRnd v _ _ s)
  case ldVxK => exact congrArg (State.complete _) (takeKey_setRnd v _ s)
  all_goals rfl

theorem runWord_setRnd {w : Word} {s t : State} (v : Byte) (hw : ∀ x nn, decodeWord w ≠ some (.rnd x nn)) (h : runWord w s = .next t) :
    runWord w (s.setRnd v) = .next (t.setRnd v) := by
  rcases runWord_cases h with ⟨i, hd, hi⟩ | ⟨hd, rfl⟩
  · rw [runWord_recognised hd]
    exact exec_setRnd v (fun x nn hrnd => hw x nn (hrnd ▸ hd)) hi
  · rw [runWord_unrecognised hd]
    rfl

/-- The byte comes in at the port, and the fetch commutes with it as every read does. -/
theorem noteFetch_beginTick_setRnd (keypad : Keypad) (rnd rnd' : Byte) (s : State) :
    (s.beginTick keypad rnd').noteFetch = (s.beginTick keypad rnd).noteFetch.setRnd rnd' :=
  noteReads_setRnd rnd' _ _ (s.beginTick keypad rnd)

/-- Settles O19: the second tick ends as the first does, with its own byte at the port. -/
theorem randomByteAffectsOnlyRnd : Obligations.RandomByteAffectsOnlyRnd := by
  intro keypad rnd rnd' s hw
  obtain ⟨u, hu, htick⟩ := tick_eq keypad rnd s
  refine ⟨u.endTick, u.endTick.setRnd rnd', htick, ?_, setRnd_keepsAllBut rnd' _⟩
  rw [tick, fetchWord_beginTick, noteFetch_beginTick_setRnd keypad rnd, runWord_setRnd rnd' hw hu]
  rfl

end Sys2Proof.Machine
end

section
/-! Proofs of the sprite family (45_sprite_draw.md): what `DRW` draws is taken from the laws of drawing, cell by cell, and what drawing twice
does is what drawing once does, read for two states that show the same sprite. -/
namespace Sys2Proof.Machine

/-! One draw (R185 to R189). -/

/-- What `DRW Vx, Vy, n` makes of the frame buffer, and whether it collides. -/
def State.drawSprite (x y : Reg) (n : Nat) (s : State) : Frame × Bool :=
  drawRows (spriteColumn (s.reg x)) (spriteRow (s.reg y)) (s.readBytes (s.dataAddr 0) n) (s.fb, false)

theorem exec_drw (x y : Reg) (n : Nat) (s : State) :
    exec (.drw x y n) s = State.complete .next (State.setReg flagReg (flagOf (s.drawSprite x y n).2)
      { s.noteReads (s.dataAddr 0) n with fb := (s.drawSprite x y n).1, fc := true }) := rfl

/-- A row count below 16 keeps the rows of a sprite distinct, as the laws of drawing ask. -/
theorem readBytes_length_le {n : Nat} (hn : n < 16) (a : Nat) (s : State) : (s.readBytes a n).length ≤ 32 := by
  rw [State.readBytes, List.length_map, List.length_range]
  omega

theorem drawSprite_cell {n : Nat} (hn : n < 16) (x y : Reg) (s : State) (r : Fin 32) (c : Fin 64) :
    cellAt (s.drawSprite x y n).1 r c = (cellAt s.fb r c ^^ s.spritePixel x y n r c) := by
  rw [State.drawSprite, drawRows_cell _ _ _ (readBytes_length_le hn _ s), rowsPixel_eq_spritePixel]

theorem drawSprite_hit {n : Nat} (hn : n < 16) (x y : Reg) (s : State) :
    (s.drawSprite x y n).2 = true ↔ ∃ r c, cellAt s.fb r c = true ∧ s.spritePixel x y n r c = true := by
  simp only [State.drawSprite, drawRows_hit _ _ _ (readBytes_length_le hn _ s), rowsPixel_eq_spritePixel, Bool.false_eq_true, false_or]

/-- The collision is all that a draw writes to the registers. -/
theorem exec_drw_reg {x y : Reg} {n : Nat} {s t : State} (h : exec (.drw x y n) s = .next t) (q : Reg) :
    t.reg q = if q = 15 then flagOf (s.drawSprite x y n).2 else s.reg q := by
  obtain rfl := complete_inv h
  rw [reg_advance, reg_setReg]
  exact congrArg (ite (q = 15) _) (reg_congr (noteReads_x _ n s) q)

theorem exec_drw_keepsAllBut {x y : Reg} {n : Nat} {s t : State} (h : exec (.drw x y n) s = .next t) :
    KeepsAllBut [.x, .pc, .fb, .fc, .notes] s t := by
  obtain rfl := complete_inv h
  intro p hp
  cases p
  case x | pc | fb | fc | notes => simp at hp
  case mem => exact ⟨noteReads_mem _ n s, readByte_congr (noteReads_mem _ n s) (noteReads_cfg _ n s)⟩
  all_goals simp [Part.same]

/-- Settles O44: the cells and the collision are those of the laws of drawing, the note that of the sprite's reads. -/
theorem drawXorsSpriteIntoFrame : Obligations.DrawXorsSpriteIntoFrame := by
  intro x y n s hwf
  have hn : n < 16 := of_decide_eq_true hwf
  have hreg := exec_drw_reg (exec_drw x y n s)
  have hflag := (hreg 15).trans (if_pos rfl)
  have hhit := drawSprite_hit hn x y s
  exact ⟨_, exec_drw x y n s, congrArg (· + 2) (noteReads_pc _ n s), rfl, exec_drw_keepsAllBut (exec_drw x y n s),
    drawSprite_cell hn x y s, fun hmeet => hflag.trans (congrArg flagOf (hhit.mpr hmeet)),
    fun hmiss => hflag.trans (congrArg flagOf (Bool.eq_false_of_not_eq_true (mt hhit.mp hmiss))),
    fun q hq => (hreg q).trans (if_neg hq), noteReads_notes _ n s⟩

/-! Two draws (R189). -/

/-- A sprite is its bytes and its origin, which wraps (R186). -/
theorem spritePixel_congr {x y : Reg} {s t : State} (hI : t.I = s.I) (hmem : ∀ a, t.readByte a = s.readByte a)
    (hx : (t.reg x).toNat % 64 = (s.reg x).toNat % 64) (hy : (t.reg y).toNat % 32 = (s.reg y).toNat % 32) (n : Nat) (r : Fin 32)
    (c : Fin 64) : t.spritePixel x y n r c = s.spritePixel x y n r c := by
  simp only [State.spritePixel, hI, hmem, hx, hy]

/-- Settles O45: the second draw lays the same sprite on the cells the first has flipped under it. -/
theorem drawTwiceRestoresFrame : Obligations.DrawTwiceRestoresFrame := by
  intro x y n s t hwf hfirst hx hy
  obtain ⟨t', hfirst', -, -, hframe, hcell, -⟩ := drawXorsSpriteIntoFrame x y n s hwf
  obtain rfl : t = t' := Host.Outcome.next.inj (hfirst.symm.trans hfirst')
  have hsprite : ∀ r c, t.spritePixel x y n r c = s.spritePixel x y n r c :=
    spritePixel_congr (hframe .I (by decide)) (hframe .mem (by decide)).2 hx hy n
  obtain ⟨u, hsecond, -, -, -, hcell', hhit, hmiss, -⟩ := drawXorsSpriteIntoFrame x y n t hwf
  have hcollide (r : Fin 32) (c : Fin 64) : t.fb[r][c] = true ∧ t.spritePixel x y n r c = true ↔
      s.fb[r][c] = false ∧ s.spritePixel x y n r c = true := by
    rw [hsprite, hcell]
    refine and_congr_left fun hset => ?_
    rw [hset, Bool.xor_true, Bool.not_eq_true']
  simp only [hcollide] at hhit hmiss
  refine ⟨u, hsecond, frame_ext fun r c => ?_, fun hflag => ?_, hhit⟩
  · calc u.fb[r][c] = (t.fb[r][c] ^^ t.spritePixel x y n r c) := hcell' r c
      _ = (s.fb[r][c] ^^ s.spritePixel x y n r c ^^ s.spritePixel x y n r c) := by rw [hsprite, hcell]
      _ = s.fb[r][c] := by rw [Bool.xor_assoc, Bool.xor_self, Bool.xor_false]
  · by_contra hno
    rw [hmiss hno] at hflag
    exact absurd hflag (by decide)

end Sys2Proof.Machine
end

section
/-! Proofs of the block family (46_memory_block_bcd.md): the two stores are one run of byte writes and share what such a run does, the load
is the law of the register block, and the round trip is the load read for memory as the store has left it. -/
namespace Sys2Proof.Machine

/-! A run of byte writes that completes (R56, R198). -/

theorem writeBytes_keepsAllBut (a : Nat) (vs : List Byte) (s : State) : KeepsAllBut [.mem, .notes] s (s.writeBytes a vs) := by
  intro p hp
  cases p
  case mem | notes => simp at hp
  all_goals simp [Part.same]

/-- `n + 1` bytes are stored from `a` on and the instruction completes: each byte of the list stands at its own offset where that is inside
memory, every address before the first and after the last is left alone, and the last decides the note (D33). -/
theorem writeBytes_completes (a : Nat) {vs : List Byte} {n : Nat} (hlen : vs.length = n + 1) {s : State} (hm : Memory.wf s.cfg s.mem) :
    ∃ t, (s.writeBytes a vs).complete .next = .next t ∧ t.pc = s.pc + 2 ∧ KeepsAllBut [.pc, .mem, .notes] s t ∧
      (∀ k v, vs[k]? = some v → a + k ≤ 0xFFF → t.readByte (a + k) = v) ∧
      (∀ b, b < a ∨ a + n < b → t.readByte b = s.readByte b) ∧
      t.notes = if 0xFFF < a + n then s.notes.mark .oobWrite else s.notes := by
  have hread (b : Nat) : (s.writeBytes a vs).readByte b = _ := readByte_writeBytes vs hm
  refine ⟨_, rfl, congrArg (· + 2) (writeBytes_pc a vs s), (writeBytes_keepsAllBut a vs s).advance .next,
    fun k v hk ha => (hread (a + k)).trans ?_, fun b hb => ?_, ?_⟩
  · rw [if_pos ⟨Nat.le_add_right a k, ha⟩, Nat.add_sub_cancel_left, hk, Option.getD_some]
  · refine (hread b).trans (ite_eq_right_iff.mpr fun hin => ?_)
    have hpast : vs.length ≤ b - a := by omega
    rw [List.getElem?_eq_none hpast, Option.getD_none]
  · have hne : vs ≠ [] := List.ne_nil_of_length_eq_add_one hlen
    have hlast : vs ≠ [] ∧ 0x1000 < a + vs.length ↔ 0xFFF < a + n := by
      rw [hlen, and_iff_right hne]
      omega
    exact (writeBytes_notes a vs s).trans (by simp only [hlast])

/-! The stores (R195, R196). -/

/-- A decimal digit fits a byte. -/
theorem byte_ofNat_toNat_of_lt_ten {d : Nat} (hd : d < 10) : (BitVec.ofNat 8 d).toNat = d := by
  rw [BitVec.toNat_ofNat]
  exact Nat.mod_eq_of_lt (by omega)

/-- Settles O47: the bytes stored are the three digits, and each is below ten. -/
theorem bcdStoresThreeDigits : Obligations.BcdStoresThreeDigits := by
  intro x s hm
  obtain ⟨t, ht, hpc, hframe, hstored, hbeside, hnotes⟩ :=
    writeBytes_completes s.I.toNat (vs := bcdDigits (s.reg x)) (n := 2) rfl hm
  have hv := (s.reg x).isLt
  have hdigit {k d : Nat} (hk : (bcdDigits (s.reg x))[k]? = some (BitVec.ofNat 8 d)) (hd : d < 10) (ha : s.I.toNat + k ≤ 0xFFF) :
      (t.readByte (s.I.toNat + k)).toNat = d := by
    rw [hstored k _ hk ha, byte_ofNat_toNat_of_lt_ten hd]
  exact ⟨t, ht, hpc, hframe, hdigit (k := 0) rfl (by omega), hdigit (k := 1) rfl (by omega), hdigit (k := 2) rfl (by omega),
    hbeside, hnotes⟩

theorem blockRegs_length (x : Reg) : (blockRegs x).length = x.val + 1 := by
  rw [blockRegs, List.length_map, List.length_range]

/-- Settles O48: the bytes stored are the registers of the block, `X + 1` of them. -/
theorem blockStoreWritesRegisters : Obligations.BlockStoreWritesRegisters := by
  intro x s hm
  obtain ⟨t, ht, hpc, hframe, -, hbeside, hnotes⟩ :=
    writeBytes_completes s.I.toNat (vs := (blockRegs x).map s.reg) ((List.length_map _).trans (blockRegs_length x)) hm
  exact ⟨t, ht, hpc, hframe, fun _ => readByte_storeRegs hm ht, hbeside, hnotes⟩

/-! The load, and the load of what was stored (R197). -/

theorem loadBlock_keepsAllBut (a : Nat) (rs : List Reg) (s : State) : KeepsAllBut [.x, .notes] s (s.loadBlock a rs) := by
  intro p hp
  cases p
  case x | notes => simp at hp
  case mem => exact ⟨loadBlock_mem a rs s, readByte_congr (loadBlock_mem a rs s) (loadBlock_cfg a rs s)⟩
  all_goals simp [Part.same]

/-- A block reaches outside memory exactly when its last byte does. -/
theorem exists_blockRegs_outside (a : Nat) (x : Reg) : (∃ r ∈ blockRegs x, 0xFFF < a + r.val) ↔ 0xFFF < a + x.val := by
  simp only [mem_blockRegs]
  refine ⟨fun ⟨r, hr, hout⟩ => ?_, fun hout => ⟨x, le_refl x, hout⟩⟩
  rw [Fin.le_def] at hr
  omega

/-- Settles O49: the registers of the block are those up to `X`, and a byte outside memory reads as 0. -/
theorem blockLoadReadsRegisters : Obligations.BlockLoadReadsRegisters := by
  intro x s
  have hsub : [Part.pc, .x, .notes] ⊆ [.x, .pc, .notes] := by simp
  have hreg (q : Reg) := reg_loadBlock s.I.toNat (blockRegs x) s q
  refine ⟨_, rfl, congrArg (· + 2) (loadBlock_pc _ _ s), ((loadBlock_keepsAllBut _ _ s).advance .next).mono hsub, fun q hq => ?_,
    fun q hq => ?_, ?_⟩
  · exact (hreg q).trans (if_pos ((mem_blockRegs x q).mpr hq))
  · exact (hreg q).trans (if_neg fun hin => not_le_of_gt hq ((mem_blockRegs x q).mp hin))
  · exact (loadBlock_notes s.I.toNat (blockRegs x) s).trans (by simp only [exists_blockRegs_outside])

/-- Settles O50: the load reads at the store's own addresses, all of them inside memory. -/
theorem blockStoreLoadRoundTrip : Obligations.BlockStoreLoadRoundTrip := by
  intro x s t u hm hfit hstore hmem hcfg hI
  obtain ⟨t', hstore', -, hframe, -⟩ := blockStoreWritesRegisters x s hm
  obtain rfl : t = t' := Host.Outcome.next.inj (hstore.symm.trans hstore')
  have huI : u.I = s.I := hI.trans (hframe .I (by decide))
  obtain ⟨v, hload, -, hvframe, hloaded, -, hnotes⟩ := blockLoadReadsRegisters x u
  refine ⟨v, hload, fun r hr => ?_, (hvframe .I (by decide)).trans huI, ?_⟩
  · have hinside : s.I.toNat + r.val ≤ 0xFFF := by
      have hrx := Fin.le_def.mp hr
      omega
    calc v.reg r = u.readByte (u.I.toNat + r.val) := hloaded r hr
      _ = t.readByte (s.I.toNat + r.val) := by rw [huI, readByte_congr hmem hcfg]
      _ = s.reg r := readByte_storeRegs hm hstore hr hinside
  · rw [hnotes, huI, if_neg (Nat.not_lt.mpr hfit)]

end Sys2Proof.Machine
end

section
/-! Proofs of the timer and key family (47_timers_keys.md): the three moves are one write each; the key-wait is a write of the lowest pressed
key or nothing, and a tick that executes it adds the frame of steps 1 to 4 and of step 9. -/
namespace Sys2Proof.Machine

/-! Moves between a register and a timer (R205 to R207). -/

theorem delayTimer_keepsAllBut (v : Byte) (s : State) : KeepsAllBut [.dt] s { s with dt := v } := by
  intro p hp
  cases p
  case dt => simp at hp
  case mem => exact ⟨rfl, fun _ => rfl⟩
  all_goals rfl

theorem soundTimer_keepsAllBut (v : Byte) (s : State) : KeepsAllBut [.st] s { s with st := v } := by
  intro p hp
  cases p
  case st => simp at hp
  case mem => exact ⟨rfl, fun _ => rfl⟩
  all_goals rfl

/-- Settles O51: a register write and two timer writes. -/
theorem timerMoves : Obligations.TimerMoves := by
  intro x s
  have hdt : [Part.pc, .dt] ⊆ [.dt, .pc] := by simp
  have hst : [Part.pc, .st] ⊆ [.st, .pc] := by simp
  exact ⟨setReg_completes (· = s.dt) x s rfl,
    ⟨_, rfl, rfl, ((delayTimer_keepsAllBut _ s).advance .next).mono hdt, rfl⟩,
    ⟨_, rfl, rfl, ((soundTimer_keepsAllBut _ s).advance .next).mono hst, rfl⟩⟩

/-! The key-wait (R208). -/

/-- The lowest pressed key is the one `leastKey` finds (D15): it finds one, and of two lowest keys neither is below the other. -/
theorem leastKey_of_lowest {kp : Keypad} {k : Key} (hk : kp[k] = true) (hlow : ∀ j : Key, j < k → kp[j] = false) :
    leastKey kp = some k := by
  cases hleast : leastKey kp with
  | none => simp [leastKey_none.mp hleast k] at hk
  | some j =>
    obtain ⟨hj, hjlow⟩ := leastKey_some hleast
    have hkj : ¬ j < k := fun hlt => by simp [hlow j hlt] at hj
    have hjk : ¬ k < j := fun hlt => by simp [hjlow k hlt] at hk
    rw [le_antisymm (not_lt.mp hjk) (not_lt.mp hkj)]

theorem takeKey_keepsAllBut (x : Reg) (s : State) : KeepsAllBut [.x] s (s.takeKey x) := by
  intro p hp
  cases p
  case x => simp at hp
  case mem => exact ⟨takeKey_mem x s, readByte_congr (takeKey_mem x s) (takeKey_cfg x s)⟩
  all_goals simp [Part.same]

theorem exec_ldVxK_pressed (x : Reg) {s : State} {k : Key} (h : leastKey s.kp = some k) :
    exec (.ldVxK x) s = .next ((s.setReg x (BitVec.ofNat 8 k.val)).advance .next) := by
  simp [exec, execLdVxK, State.takeKey, keyDirective, h]

theorem exec_ldVxK_none (x : Reg) {s : State} (h : leastKey s.kp = none) : exec (.ldVxK x) s = .next (s.advance .hold) := by
  simp [exec, execLdVxK, State.takeKey, keyDirective, h]

theorem exec_ldVxK_keepsAllBut {x : Reg} {s t : State} (h : exec (.ldVxK x) s = .next t) : KeepsAllBut [.x, .pc] s t := by
  obtain rfl := complete_inv h
  exact ((takeKey_keepsAllBut x s).advance _).mono (by simp)

/-- Settles O52: the write and the directive both turn on whether there is a lowest pressed key. -/
theorem keyWaitTakesLowestKey : Obligations.KeyWaitTakesLowestKey := by
  intro x s
  obtain ⟨t, ht⟩ := exec_next (.ldVxK x) s
  refine ⟨t, ht, exec_ldVxK_keepsAllBut ht, fun k hk hlow => ?_, fun hno => ?_⟩
  · rw [exec_ldVxK_pressed x (leastKey_of_lowest hk hlow)] at ht
    cases ht
    have hfits : k.val % 256 = k.val := Nat.mod_eq_of_lt (by omega)
    refine ⟨rfl, ?_, fun q hq => ?_⟩
    · rw [reg_advance, reg_setReg, if_pos rfl, BitVec.toNat_ofNat, hfits]
    · rw [reg_advance, reg_setReg, if_neg hq]
  · rw [exec_ldVxK_none x (leastKey_none.mpr hno)] at ht
    cases ht
    exact ⟨rfl, rfl⟩

/-! The key-wait in a tick (R110, R208). -/

theorem KeepsAllBut.trans {l l' : List Part} {s t u : State} (h : KeepsAllBut l s t) (h' : KeepsAllBut l' t u) :
    KeepsAllBut (l ++ l') s u := by
  intro p hp
  rw [List.mem_append, not_or] at hp
  have hst := h p hp.1
  have htu := h' p hp.2
  cases p
  case mem => exact ⟨htu.1.trans hst.1, fun a => (htu.2 a).trans (hst.2 a)⟩
  all_goals exact htu.trans hst

/-- Steps 1 to 4 of a tick. -/
theorem beginTick_noteFetch_keepsAllBut (keypad : Keypad) (rnd : Byte) (s : State) :
    KeepsAllBut [.kp, .fc, .dt, .st, .rnd, .notes] s (s.beginTick keypad rnd).noteFetch := by
  intro p hp
  cases p
  case kp | fc | dt | st | rnd | notes => simp at hp
  case mem =>
    have hmem : (s.beginTick keypad rnd).noteFetch.mem = s.mem := noteReads_mem _ _ _
    exact ⟨hmem, readByte_congr hmem (noteFetch_cfg _)⟩
  all_goals simp [Part.same, State.noteFetch]

theorem endTick_keepsAllBut (s : State) : KeepsAllBut [.report] s s.endTick := by
  intro p hp
  cases p
  case report => simp at hp
  case mem => exact ⟨rfl, fun _ => rfl⟩
  all_goals rfl

/-- Settles O18: the instruction sees the tick's own keypad, and `pc` and the registers as the tick found them. -/
theorem keyWaitHoldsUntilKeyPressed : Obligations.KeyWaitHoldsUntilKeyPressed := by
  intro s keypad rnd s0 x hop hd
  obtain ⟨t, ht, hframe, hpressed, hnone⟩ := keyWaitTakesLowestKey x (s0.beginTick keypad rnd).noteFetch
  have hbegin := beginTick_noteFetch_keepsAllBut keypad rnd s0
  have hkp : (s0.beginTick keypad rnd).noteFetch.kp = keypad := noteReads_kp _ _ _
  have hpc : (s0.beginTick keypad rnd).noteFetch.pc = s0.pc := hbegin .pc (by decide)
  have hreg (q : Reg) : (s0.beginTick keypad rnd).noteFetch.reg q = s0.reg q := reg_congr (hbegin .x (by decide)) q
  simp only [hkp, hpc, hreg] at hpressed hnone
  refine ⟨t.endTick, step_recognised hop hd ht, ((hbegin.trans hframe).trans (endTick_keepsAllBut t)).mono (by decide),
    fun hno => ?_, hpressed⟩
  obtain ⟨hholds, hx⟩ := hnone hno
  exact ⟨hholds, fun q => (reg_congr hx q).trans (hreg q)⟩

end Sys2Proof.Machine
end

section
/-! Proofs of the exception family (60_exceptions.md): an instruction notes one condition at most, under a condition of its own, and three of
the seven conditions are fault markers. -/
namespace Sys2Proof.Machine

/-- The three conditions of R221 that lie outside the document's legal domain (D32). -/
def IsFaultMarker (c : Condition) : Prop := c = .stackOverflow ∨ c = .stackUnderflow ∨ c = .keyIndexRange

theorem inDomain_iff {s : State} : s.inDomain ↔ ∀ c, IsFaultMarker c → s.notes.has c = false := by
  refine ⟨fun ⟨hover, hunder, hkey⟩ c hc => ?_, fun h => ⟨h .stackOverflow (.inl rfl), h .stackUnderflow (.inr (.inl rfl)),
    h .keyIndexRange (.inr (.inr rfl))⟩⟩
  obtain rfl | rfl | rfl := hc
  · exact hover
  · exact hunder
  · exact hkey

/-- An operation that leaves the markers alone leaves no domain. -/
theorem not_inDomain_iff_of_notes_eq {s t : State} (hs : s.inDomain) (hn : t.notes = s.notes) : ¬ t.inDomain ↔ False := by
  rw [inDomain_iff, hn, ← inDomain_iff, iff_false, not_not]
  exact hs

/-- An operation that notes `c` under the condition `p`, the form of the laws of the operations, leaves the domain exactly where `p` holds
and `c` is a fault marker. -/
theorem not_inDomain_iff_of_noted {s t : State} {p : Prop} [Decidable p] {c : Condition} (hs : s.inDomain)
    (hn : t.notes = if p then s.notes.mark c else s.notes) : ¬ t.inDomain ↔ p ∧ IsFaultMarker c := by
  by_cases hp : p
  · rw [if_pos hp] at hn
    have hclear := inDomain_iff.mp hs
    rw [inDomain_iff, hn, and_iff_right hp]
    refine ⟨fun hout => ?_, fun hc hin => ?_⟩
    · by_contra hc
      refine hout fun d hd => ?_
      have hne : d ≠ c := fun hdc => hc (hdc ▸ hd)
      simp [hclear d hd, hne]
    · simpa using hin c hc
  · rw [if_neg hp] at hn
    rw [not_inDomain_iff_of_notes_eq hs hn, false_iff]
    exact fun h => hp h.1

/-- Settles O43: call, return and key skip note a fault marker; the four instructions that read or write a run of bytes note only a
condition inside the domain, and the others none. -/
theorem legalDomainIsLeftOnlyWhereMarked : Obligations.LegalDomainIsLeftOnlyWhereMarked := by
  intro i s t hs h
  cases i <;> obtain rfl := complete_inv h
  case call nnn => exact (not_inDomain_iff_of_noted hs (pushReturn_notes _ s)).trans (by simp [IsFaultMarker])
  case ret => exact (not_inDomain_iff_of_noted hs (popReturn_notes s)).trans (by simp [IsFaultMarker])
  case skp x | sknp x => exact (not_inDomain_iff_of_noted hs (noteKey_notes _ s)).trans (by simp [IsFaultMarker])
  case drw x y n => exact (not_inDomain_iff_of_noted hs (noteReads_notes _ n s)).trans (by simp [IsFaultMarker])
  case ldB x | storeRegs x => exact (not_inDomain_iff_of_noted hs (writeBytes_notes _ _ s)).trans (by simp [IsFaultMarker])
  case loadRegs x => exact (not_inDomain_iff_of_noted hs (loadBlock_notes _ _ s)).trans (by simp [IsFaultMarker])
  all_goals exact (not_inDomain_iff_of_notes_eq hs (by simp)).trans (by simp)

end Sys2Proof.Machine
end

section
/-! Proofs of the host's transactions (70_reset_and_hazards.md): `PowerOn`, `Reset` and `LoadProgram` write their parts at once, so all there
is to prove is what memory reads as afterwards, which for two of them is a list of bytes copied into a canonical memory. -/
namespace Sys2Proof.Machine

/-! A step whose transaction is no tick (R40). -/

theorem step_powerOn {s s0 : State} (hop : s.nextOp = (.powerOn, s0)) : step s = .next s0.powerOn := by
  rw [step, hop, transact]

theorem step_reset {s s0 : State} (hop : s.nextOp = (.reset, s0)) : step s = .next s0.hostReset := by
  rw [step, hop, transact]

theorem step_loadProgram {s s0 : State} {bytes : List Byte} (hop : s.nextOp = (.loadProgram bytes, s0)) :
    step s = .next (s0.loadProgram bytes) := by
  rw [step, hop, transact]

/-- Taking the transaction from the queue keeps memory canonical. -/
theorem wf_of_nextOp {s s0 : State} {op : HostOp} (hop : s.nextOp = (op, s0)) (hm : Memory.wf s.cfg s.mem) :
    Memory.wf s0.cfg s0.mem := by
  have hcfg := nextOp_cfg s
  have hmem := nextOp_mem s
  rw [hop] at hcfg hmem
  rwa [hcfg, hmem]

/-! Memory after a list of bytes has been copied into it (R250 to R252). -/

section
variable {s t : State} {a : Nat} {vs : List Byte} (hm : Memory.wf s.cfg s.mem) (hcfg : t.cfg = s.cfg)
  (hmem : t.mem = Memory.writeList s.cfg a vs s.mem) (hfit : a + vs.length ≤ memSize)
include hm hcfg hmem hfit

theorem readByte_copied {k : Nat} {v : Byte} (hk : vs[k]? = some v) : t.readByte (a + k) = v := by
  obtain ⟨hlt, -⟩ := List.getElem?_eq_some_iff.mp hk
  simp only [memSize] at hfit
  rw [readByte_inside t (by omega), hcfg, hmem, read_writeList vs hm hfit, if_pos (Nat.le_add_right a k), Nat.add_sub_cancel_left, hk,
    Option.getD_some]

theorem readByte_not_copied {b : Nat} (hb : b < a ∨ a + vs.length ≤ b) : t.readByte b = s.readByte b := by
  have hread : t.mem.read t.cfg b = s.mem.read s.cfg b := by
    rw [hcfg, hmem, read_writeList vs hm hfit, ite_eq_right_iff]
    intro hab
    have hpast : vs.length ≤ b - a := by omega
    rw [List.getElem?_eq_none hpast, Option.getD_none]
  rw [State.readByte, State.readByte, hread]

end

/-! Power-on and reset (R38, R250, R251). -/

/-- After `PowerOn` memory lists no cell, so a byte of it is the byte of power-on. -/
theorem readByte_powerOn (s : State) (a : Nat) : s.powerOn.readByte a = if a ≤ 0xFFF then powerOnByte s.cfg a else 0 := rfl

theorem readByte_powerOn_outside (s : State) {a : Nat} (h : a < 0x050 ∨ 0x09F < a) :
    s.powerOn.readByte a = if a ≤ 0xFFF then (s.cfg.memInit.lookup a).getD 0 else 0 := by
  rw [readByte_powerOn, powerOnByte_outside h]

/-- Settles O54: the arrays hold their zero everywhere, and memory is that of power-on for the machine's own parameters. -/
theorem powerOnInstallsInitialState : Obligations.PowerOnInstallsInitialState := by
  intro s s0 hop
  refine ⟨s0.powerOn, step_powerOn hop, rfl, fun _ => Vector.getElem_replicate _, rfl, fun _ => Vector.getElem_replicate _, rfl, rfl, rfl,
    blankFrame_cell, fun _ => Vector.getElem_replicate _, rfl, fun k => ?_, fun a hin hout => ?_, fun hzero a hout => ?_,
    rfl, rfl, rfl, rfl, rfl, rfl⟩
  · rw [readByte_powerOn, if_pos (by omega)]
    exact powerOnByte_font k
  · rw [readByte_powerOn_outside s0 hout, if_pos hin]
  · rw [readByte_powerOn_outside s0 hout, hzero]
    exact ite_self 0

/-- Settles O53: the arrays hold their zero everywhere, and the font table is the only part of memory written. -/
theorem resetClearsAllButMemory : Obligations.ResetClearsAllButMemory := by
  intro s s0 hm hop
  have hm0 := wf_of_nextOp hop hm
  have hcfg : s0.hostReset.cfg = s0.cfg := rfl
  have hmem : s0.hostReset.mem = Memory.writeList s0.cfg fontBase s0.cfg.font.toList s0.mem := rfl
  have hlen : s0.cfg.font.toList.length = 80 := Vector.length_toList
  have hfit : fontBase + s0.cfg.font.toList.length ≤ memSize := by rw [hlen]; decide
  refine ⟨s0.hostReset, step_reset hop, rfl, fun _ => Vector.getElem_replicate _, rfl, fun _ => Vector.getElem_replicate _, rfl, rfl, rfl,
    blankFrame_cell, fun _ => Vector.getElem_replicate _, rfl, rfl, fun k => ?_, fun a hout => ?_, rfl, rfl, rfl, rfl, rfl⟩
  · have hglyph : s0.cfg.font.toList[k.val]? = some s0.cfg.font[k] := by simp
    exact readByte_copied hm0 hcfg hmem hfit hglyph
  · refine readByte_not_copied hm0 hcfg hmem hfit (hout.imp_right fun hpast => ?_)
    rw [hlen]
    exact hpast

/-! Loading a program (R252, R253). -/

theorem loadProgram_keepsAllBut (bytes : List Byte) (s : State) : KeepsAllBut [.pc, .mem, .report, .notes] s (s.loadProgram bytes) := by
  rw [loadProgram_eq]
  intro p hp
  cases p
  case pc | mem | report | notes => simp at hp
  all_goals rfl

theorem loadProgram_pc (bytes : List Byte) (s : State) : (s.loadProgram bytes).pc = 0x200 := by
  rw [loadProgram_eq]

theorem loadProgram_notes (bytes : List Byte) (s : State) :
    (s.loadProgram bytes).notes = if progMax < bytes.length then s.notes.mark .loadTruncated else s.notes := by
  rw [loadProgram_eq]

theorem loadProgram_mem (bytes : List Byte) (s : State) :
    (s.loadProgram bytes).mem = Memory.writeList s.cfg progBase (bytes.take progMax) s.mem := by
  rw [loadProgram_eq]

/-- What is copied of an image ends with memory. -/
theorem progBase_add_length_take_le (bytes : List Byte) : progBase + (bytes.take progMax).length ≤ memSize :=
  Nat.add_le_add_left (List.length_take_le progMax bytes) progBase

/-- Settles O55: the bytes copied are the first 3584 of the image. -/
theorem loadProgramCopiesImage : Obligations.LoadProgramCopiesImage := by
  intro s s0 bytes hm hop
  have hm0 := wf_of_nextOp hop hm
  have hcfg := loadProgram_cfg bytes s0
  have hmem := loadProgram_mem bytes s0
  have hfit := progBase_add_length_take_le bytes
  refine ⟨s0.loadProgram bytes, step_loadProgram hop, loadProgram_pc bytes s0, loadProgram_keepsAllBut bytes s0,
    fun k hk hmax => ?_, fun a ha => ?_, loadProgram_notes bytes s0⟩
  · have hcopied : (bytes.take progMax)[k]? = some bytes[k] := by
      rw [List.getElem?_take_of_lt (show k < progMax from hmax), List.getElem?_eq_getElem hk]
    exact readByte_copied hm0 hcfg hmem hfit hcopied
  · refine readByte_not_copied hm0 hcfg hmem hfit (ha.imp_right fun hpast => le_trans ?_ hpast)
    exact Nat.add_le_add_left (List.length_take_le' progMax bytes) progBase

/-- Settles O56: `pc` is the address of the first byte copied. -/
theorem loadedProgramIsFetchedFirst : Obligations.LoadedProgramIsFetchedFirst := by
  intro s s0 hi lo rest hm hop
  obtain ⟨t, ht, hpc, -, hcopied, -⟩ := loadProgramCopiesImage s s0 (hi :: lo :: rest) hm hop
  have hhi : t.readByte 0x200 = hi := hcopied 0 (by simp) (by decide)
  have hlo : t.readByte 0x201 = lo := hcopied 1 (by simp) (by decide)
  refine ⟨t, ht, ?_⟩
  rw [State.fetchWord, hpc]
  exact congrArg₂ (· ++ ·) hhi hlo

end Sys2Proof.Machine
end
